-- ==== Sys2Proof/Word.lean ====
section
/-! DEFINITION. The fixed widths of 00_scope.md rule R9. Everything computed on words stands in files under Machine/. -/

namespace Sys2Proof

/-- A lane word: 64 bits, unsigned (R9). -/
abbrev Word := BitVec 64

/-- A byte of a payload or of a response (R41). -/
abbrev Byte := BitVec 8

/-- A command word (R9, R60). -/
abbrev CmdWord := BitVec 32

end Sys2Proof
end

