-- ==== Sys2Proof/Machine/Bytes.lean ====
section
/-! DEFINITION. Bytes and words: the primitives Payload, LE64, LE64bytes, LE32 and LE32bytes of 00_scope.md rule R12, in
the one byte order of 20_memory.md rule R44. -/

namespace Sys2Proof.Machine

/-- The sum over i of b_i · 2^(8i), the first byte the least significant (R12, R44). -/
def leNat : List Byte → Nat
  | [] => 0
  | b :: bs => b.toNat + 2 ^ 8 * leNat bs

/-- The `k` low bytes of a number, least significant first (R12, R44). -/
def leBytes : Nat → Nat → List Byte
  | 0, _ => []
  | k + 1, v => BitVec.ofNat 8 v :: leBytes k (v / 2 ^ 8)

/-- `Payload(i, n)`: bytes i .. i+n−1 of a payload (R12). -/
def slice (p : List Byte) (i n : Nat) : List Byte := (p.drop i).take n

/-- `LE64` (R12). -/
def le64 (bs : List Byte) : Word := BitVec.ofNat 64 (leNat bs)

/-- `LE64bytes` (R12). -/
def le64bytes (w : Word) : List Byte := leBytes 8 w.toNat

/-- `LE32` (R12). -/
def le32 (bs : List Byte) : BitVec 32 := BitVec.ofNat 32 (leNat bs)

/-- `LE32bytes` (R12). -/
def le32bytes (w : BitVec 32) : List Byte := leBytes 4 w.toNat

/-- A vector of words as bytes, word 0 first, each least significant byte first (R44, R46). -/
def vectorBytes (ws : List Word) : List Byte := ws.flatMap le64bytes

end Sys2Proof.Machine
end

