-- ==== Sys2Proof/Syntax.lean ====
section
/-! DEFINITION. The commands of the opcode table (30_encoding.md rule R62): one constructor a row, no more. -/

namespace Sys2Proof

/-- A command as the port delivers it. Decoding is by OPC alone (R63), so a constructor carries the RSV field as it
came and the payload; the LEN field is the payload's length, since a transaction's payload has exactly LEN bytes (R42;
log entry 8). A non-zero RSV, or a LEN other than the one of R62, is the command's malformed form (R63). -/
inductive Instr where
  /-- SEED, OPC 0x01 (40_seed.md R80). -/
  | seed (rsv : BitVec 8) (payload : List Byte)
  /-- NEXT.U64, OPC 0x02 (41_advance.md R95); NEXT.WIDE.I is another name of it (R68). -/
  | nextU64 (rsv : BitVec 8) (payload : List Byte)
  /-- NEXT.F64, OPC 0x03 (42_convert.md R114); NEXT.WIDE.F is another name of it (R69). -/
  | nextF64 (rsv : BitVec 8) (payload : List Byte)
  /-- STATUS, OPC 0x04 (43_status.md R120). -/
  | status (rsv : BitVec 8) (payload : List Byte)
  deriving DecidableEq, Repr

/-- The RSV field of a command (R60). -/
def Instr.rsv : Instr → BitVec 8
  | .seed r _ => r
  | .nextU64 r _ => r
  | .nextF64 r _ => r
  | .status r _ => r

/-- The payload of a command (R42). -/
def Instr.payload : Instr → List Byte
  | .seed _ p => p
  | .nextU64 _ p => p
  | .nextF64 _ p => p
  | .status _ p => p

/-- The mnemonic of a command (R62). -/
def Instr.mnemonic : Instr → String
  | .seed _ _ => "SEED"
  | .nextU64 _ _ => "NEXT.U64"
  | .nextF64 _ _ => "NEXT.F64"
  | .status _ _ => "STATUS"

end Sys2Proof
end

