-- ==== Sys2Proof/Config.lean ====
section
/-! DEFINITION. What one build of the block fixes: the parameters of 00_scope.md rules R5 to R8 and the identity string of
rule R2. A configuration is no state: no command and no reset changes it. -/

namespace Sys2Proof

/-- `P_N`, the lane count: 4 or 8 and no other (R5). -/
inductive LaneCount where
  | four
  | eight
  deriving DecidableEq, Repr

/-- `P_VARIANT`, the output variant (R6). -/
inductive Variant where
  | plus
  | plusPlus
  deriving DecidableEq, Repr

/-- `P_BACKEND`, the implementation strategy (R7). -/
inductive Backend where
  | portable
  | hwSpecific
  deriving DecidableEq, Repr

/-- One build's configuration (R5, R6, R7). -/
structure Config where
  lanes : LaneCount
  variant : Variant
  backend : Backend
  deriving DecidableEq, Repr

/-- The lane count as a number (R5). -/
def LaneCount.toNat : LaneCount → Nat
  | .four => 4
  | .eight => 8

/-- `P_N` of a configuration (R5). -/
def Config.n (c : Config) : Nat := c.lanes.toNat

/-- All eight configurations, each a valid choice (D30, N20). -/
def Config.all : List Config :=
  [⟨.four, .plus, .portable⟩, ⟨.four, .plus, .hwSpecific⟩,
   ⟨.four, .plusPlus, .portable⟩, ⟨.four, .plusPlus, .hwSpecific⟩,
   ⟨.eight, .plus, .portable⟩, ⟨.eight, .plus, .hwSpecific⟩,
   ⟨.eight, .plusPlus, .portable⟩, ⟨.eight, .plusPlus, .hwSpecific⟩]

/-- The configuration `State.reset` is given: `xoshiro256pp-x4-portable`, the one the spec's own examples use.
DESIGN CHOICE (log entry 1): the spec leaves the choice of build open (D30). -/
def Config.reference : Config := ⟨.four, .plusPlus, .portable⟩

/-- The identity string of a configuration (R2). -/
def Config.identity : Config → String
  | ⟨.four, .plus, .portable⟩ => "xoshiro256p-x4-portable"
  | ⟨.four, .plus, .hwSpecific⟩ => "xoshiro256p-x4-hw"
  | ⟨.four, .plusPlus, .portable⟩ => "xoshiro256pp-x4-portable"
  | ⟨.four, .plusPlus, .hwSpecific⟩ => "xoshiro256pp-x4-hw"
  | ⟨.eight, .plus, .portable⟩ => "xoshiro256p-x8-portable"
  | ⟨.eight, .plus, .hwSpecific⟩ => "xoshiro256p-x8-hw"
  | ⟨.eight, .plusPlus, .portable⟩ => "xoshiro256pp-x8-portable"
  | ⟨.eight, .plusPlus, .hwSpecific⟩ => "xoshiro256pp-x8-hw"

/-- `P_HW_EXT`: the name of the instruction-set extension a HW_SPECIFIC build requires, left open by the spec (R8, D26).
A free value: nothing can be proved of it (log entry 10). -/
opaque Config.hwExt : String

/-- Whether a configuration can be built for a target that has the extensions `target`: a build for a target that
lacks `P_HW_EXT` fails at build time (R8), so no built block observes its absence. -/
def Config.builds (c : Config) (target : List String) : Bool :=
  match c.backend with
  | .portable => true
  | .hwSpecific => target.contains Config.hwExt

end Sys2Proof
end

