-- ==== Sys2Proof/WellFormed.lean ====
section
/-! DEFINITION. Which commands the port can express, and which of those are the legal forms of 30_encoding.md rule R62. -/

namespace Sys2Proof

/-- A command the port can express: its payload's length fits the 16-bit LEN field (R60, R61). -/
def Instr.wellFormed (i : Instr) : Bool :=
  decide (i.payload.length < 2 ^ 16)

/-- The payload length R62 requires of a command in a configuration: 32·P_N for SEED, else 0. -/
def Instr.requiredLen (c : Config) : Instr → Nat
  | .seed _ _ => 32 * c.n
  | .nextU64 _ _ => 0
  | .nextF64 _ _ => 0
  | .status _ _ => 0

/-- A legal command of a configuration: RSV is 0 and LEN is as R62 requires. Every other form is malformed (R63). -/
def Instr.legal (c : Config) (i : Instr) : Bool :=
  i.rsv == 0 && i.payload.length == i.requiredLen c

end Sys2Proof
end

