-- ==== Sys2Proof/Decode.lean ====
section
/-! DEFINITION. The decoder of 30_encoding.md, total on any command word, payload and byte list, and the encoder written
from the same format (R60) and opcode map (R62). -/

namespace Sys2Proof

/-- Why a transaction is no command of the opcode map. -/
inductive DecodeError where
  /-- OPC is 0x00 or 0x05 to 0xFF (R62, R64): the block takes ILLEGAL_OPCODE on it (R133). -/
  | illegalOpcode
  /-- The payload's length is not LEN: not expressible on the port (R42). -/
  | payloadLength
  /-- A byte list too short to hold a command word and its LEN payload bytes (R60). -/
  | truncated
  deriving DecidableEq, Repr

/-- The OPC field, bits 7:0 (R60). -/
def cmdOpc (cmd : CmdWord) : BitVec 8 := cmd.extractLsb' 0 8

/-- The RSV field, bits 15:8 (R60). -/
def cmdRsv (cmd : CmdWord) : BitVec 8 := cmd.extractLsb' 8 8

/-- The LEN field, bits 31:16, an unsigned count (R60, R61). -/
def cmdLen (cmd : CmdWord) : Nat := (cmd.extractLsb' 16 16).toNat

/-- The command an opcode names, or none (R62). -/
def opcodeInstr (opc rsv : BitVec 8) (payload : List Byte) : Option Instr :=
  match opc.toNat with
  | 1 => some (.seed rsv payload)
  | 2 => some (.nextU64 rsv payload)
  | 3 => some (.nextF64 rsv payload)
  | 4 => some (.status rsv payload)
  | _ => none

/-- The command a transaction carries: by OPC alone, once the payload has exactly LEN bytes (R42, R63). -/
def decodeCommand (cmd : CmdWord) (payload : List Byte) : Except DecodeError Instr :=
  if payload.length ≠ cmdLen cmd then .error .payloadLength
  else
    match opcodeInstr (cmdOpc cmd) (cmdRsv cmd) payload with
    | some i => .ok i
    | none => .error .illegalOpcode

/-- The command at the head of a byte list, and the bytes after it: the 32-bit word, least significant byte first
(R44), then its LEN payload bytes (R60; log entry 16). -/
def decode (bs : List Byte) : Except DecodeError (Instr × List Byte) :=
  if bs.length < 4 then .error .truncated
  else
    let cmd := Machine.le32 (bs.take 4)
    let rest := bs.drop 4
    if rest.length < cmdLen cmd then .error .truncated
    else
      match decodeCommand cmd (rest.take (cmdLen cmd)) with
      | .ok i => .ok (i, rest.drop (cmdLen cmd))
      | .error e => .error e

/-- The opcode of a command (R62). -/
def opcodeOf : Instr → BitVec 8
  | .seed _ _ => 0x01
  | .nextU64 _ _ => 0x02
  | .nextF64 _ _ => 0x03
  | .status _ _ => 0x04

/-- A command word from its fields: LEN in bits 31:16, RSV in 15:8, OPC in 7:0 (R60). -/
def packCommand (opc rsv : BitVec 8) (len : BitVec 16) : CmdWord := (len ++ rsv ++ opc : BitVec (16 + 8 + 8))

/-- The command word of a command (R60, R62). -/
def encodeCommand (i : Instr) : CmdWord :=
  packCommand (opcodeOf i) i.rsv (BitVec.ofNat 16 i.payload.length)

/-- The bytes of a command: its word, least significant byte first, then its payload (R44, R60). -/
def encode (i : Instr) : List Byte := Machine.le32bytes (encodeCommand i) ++ i.payload

/-- One row of spec/opcode_table.json: a word belongs to the row where it agrees with `pattern` under `mask`. -/
structure OpcodeRow where
  mnemonic : String
  pattern : CmdWord
  mask : CmdWord
  deriving DecidableEq, Repr

/-- The rows of spec/opcode_table.json, with the masks of R63. -/
def opcodeTable : List OpcodeRow :=
  [⟨"SEED", 0x00000001, 0x0000FFFF⟩, ⟨"NEXT.U64", 0x00000002, 0xFFFFFFFF⟩,
   ⟨"NEXT.F64", 0x00000003, 0xFFFFFFFF⟩, ⟨"STATUS", 0x00000004, 0xFFFFFFFF⟩]

/-- Whether a command word belongs to a row. -/
def OpcodeRow.matches (r : OpcodeRow) (cmd : CmdWord) : Bool := cmd &&& r.mask == r.pattern

/-- The command word of a table word: its low 32 bits, the bits above `nbits` zero. -/
def tableCommand (nbits w : Nat) : CmdWord := BitVec.ofNat 32 (w % 2 ^ nbits)

/-- The payload of a table word: the LEN bytes above the command word, zero above `nbits`. -/
def tablePayload (nbits w : Nat) : List Byte :=
  Machine.leBytes (cmdLen (tableCommand nbits w)) (w % 2 ^ nbits / 2 ^ 32)

/-- What the decoder reads from an instruction whose bits are `w`, laid out as bytes, the bits above `nbits` zero. -/
def decodeTableWord (nbits w : Nat) : Option Instr :=
  match decode (Machine.le32bytes (tableCommand nbits w) ++ tablePayload nbits w) with
  | .ok (i, _) => some i
  | .error _ => none

end Sys2Proof
end

