-- ==== Sys2Proof/Machine/Convert.lean ====
section
/-! DEFINITION. The unit-double conversion of 42_convert.md, and what a binary64 bit pattern denotes. -/

namespace Sys2Proof.Machine

/-- The 53 bits of a word the conversion keeps: `k = x >> 11` (R110, R111). -/
def unitBits (x : Word) : Nat := (x >>> 11).toNat

/-- U2D, as the bit pattern of R111: +0.0 for k = 0, else biased exponent p + 970 and k's bits below its leading 1. -/
def u2d (x : Word) : Word :=
  let k := unitBits x
  if k = 0 then 0
  else
    let p := Nat.log2 k
    BitVec.ofNat 64 (((p + 970) <<< 52) ||| ((k - 2 ^ p) <<< (52 - p)))

/-- The sign bit of a binary64 pattern (the layout R111 uses; log entry 15). -/
def f64Sign (b : Word) : Bool := b.getLsbD 63

/-- The biased exponent of a binary64 pattern, bits 62:52. -/
def f64Exponent (b : Word) : Nat := (b.extractLsb' 52 11).toNat

/-- The fraction field of a binary64 pattern, bits 51:0. -/
def f64Fraction (b : Word) : Nat := (b.extractLsb' 0 52).toNat

/-- The magnitude of a finite binary64 pattern: fraction · 2^−1074 for biased exponent 0, else
(2^52 + fraction) · 2^(exponent − 1075). -/
def f64Magnitude (b : Word) : Rat :=
  if f64Exponent b = 0 then (f64Fraction b : Rat) / 2 ^ 1074
  else (((2 ^ 52 + f64Fraction b) * 2 ^ f64Exponent b : Nat) : Rat) / 2 ^ 1075

/-- The real number a binary64 pattern denotes; none for infinities and NaNs. -/
def f64Value (b : Word) : Option Rat :=
  if f64Exponent b = 2047 then none
  else if f64Sign b then some (-f64Magnitude b)
  else some (f64Magnitude b)

end Sys2Proof.Machine
end

