-- ==== Sys2Proof/Machine/Lane.lean ====
section
/-! DEFINITION. The functions of one lane's state: 41_advance.md rules R90 to R92 and the inverse of R98, over the word
operators of 00_scope.md rule R11. -/

namespace Sys2Proof.Machine

/-- One lane's state, the 4-tuple (S0[j], S1[j], S2[j], S3[j]) (10_state.md R21). -/
structure Lane where
  s0 : Word
  s1 : Word
  s2 : Word
  s3 : Word
  deriving DecidableEq, Repr

/-- `rotl(a, k) = (a << k) | (a >> (64 − k))` (R11). -/
def rotl (a : Word) (k : Nat) : Word := (a <<< k) ||| (a >>> (64 - k))

/-- OutPlus (R90). -/
def outPlus (l : Lane) : Word := l.s0 + l.s3

/-- OutPlusPlus (R91). -/
def outPlusPlus (l : Lane) : Word := rotl (l.s0 + l.s3) 23 + l.s0

/-- The output function P_VARIANT selects (00_scope.md R6). -/
def outWord (v : Variant) (l : Lane) : Word :=
  match v with
  | .plus => outPlus l
  | .plusPlus => outPlusPlus l

/-- Advance: the statements of R92 in the order written, each reading what the ones before it wrote. -/
def advance (l : Lane) : Lane :=
  let t := l.s1 <<< 17
  let s2 := l.s2 ^^^ l.s0
  let s3 := l.s3 ^^^ l.s1
  let s1 := l.s1 ^^^ s2
  let s0 := l.s0 ^^^ s3
  let s2 := s2 ^^^ t
  let s3 := rotl s3 45
  ⟨s0, s1, s2, s3⟩

/-- The solution x of `x ^ (x << 17) = y`: bit i of x is bit i of y with bit i − 17 of x, so x gathers y shifted by
0, 17, 34 and 51 (R98). -/
def unshift17 (y : Word) : Word := y ^^^ (y <<< 17) ^^^ (y <<< 34) ^^^ (y <<< 51)

/-- The inverse of Advance, in the order of R98. -/
def unadvance (l : Lane) : Lane :=
  let x := rotl l.s3 19
  let s0 := l.s0 ^^^ x
  let s1 := unshift17 (l.s1 ^^^ l.s2)
  let s2 := l.s1 ^^^ s0 ^^^ s1
  let s3 := x ^^^ s1
  ⟨s0, s1, s2, s3⟩

end Sys2Proof.Machine
end

