-- ==== Sys2Proof/Machine/State.lean ====
section
/-! DEFINITION. The state of the block (10_state.md), as plain data, with the port the host drives it through
(20_memory.md R41, R54), and its value after reset. -/

namespace Sys2Proof.Machine

/-- One host step (20_memory.md R54; 70_reset_and_hazards.md R151, R159). -/
inductive HostStep where
  /-- A transaction: a command word and its payload (R41). -/
  | command (cmd : CmdWord) (payload : List Byte)
  /-- The reset input asserted between two transactions (R150). -/
  | reset
  /-- The reset input asserted during a transaction, of which the bytes `delivered` had arrived (R151). -/
  | resetDuring (cmd : CmdWord) (delivered : List Byte)
  deriving DecidableEq, Repr

/-- A response: an 8-bit code and a list of data bytes (R41, R48). -/
structure Response where
  code : BitVec 8
  data : List Byte
  deriving DecidableEq, Repr

/-- The machine: the configuration of the build, the block's registers and flags, and the two ends of the port. -/
structure State where
  /-- The build's configuration (00_scope.md R5 to R7): constant, kept by every step (log entry 1). -/
  cfg : Config
  /-- S0, lane 0 first, or no value (R20, R23). -/
  s0 : Option (List Word)
  /-- S1, lane 0 first, or no value (R20, R23). -/
  s1 : Option (List Word)
  /-- S2, lane 0 first, or no value (R20, R23). -/
  s2 : Option (List Word)
  /-- S3, lane 0 first, or no value (R20, R23). -/
  s3 : Option (List Word)
  /-- SEEDED (R24). -/
  seeded : Bool
  /-- FAULTED (R25). -/
  faulted : Bool
  /-- FAULT_CODE (R26). -/
  faultCode : BitVec 4
  /-- The host's steps still to come, the next one first (R50; log entry 3). -/
  inbox : List HostStep
  /-- The responses given so far, in issue order (R159; log entry 3). -/
  responses : List Response
  deriving DecidableEq, Repr

/-- Why the model stops although the block would not. -/
inductive Fault where
  /-- Raised by NEXT.U64 and NEXT.F64 when SEEDED is 1 and S0..S3 do not hold P_N lanes each. No run reaches such a
  state (R23: S0..S3 hold values if and only if SEEDED = 1), so no draw of a run stops here. Safe. -/
  | noValue
  deriving DecidableEq, Repr

/-- Why a step has no meaning. -/
inductive Refusal where
  /-- Raised by an arm of exec for a command that has no meaning yet; no arm does. Safe. -/
  | notModelled (mnemonic : String)
  /-- Raised by step when the host's payload does not have LEN bytes: the port cannot express it, and the spec gives it
  no move (20_memory.md R42, R54; 93_implementation_defined.md I8). Safe. -/
  | payloadLength
  deriving DecidableEq, Repr

/-- The state after reset of a build (10_state.md R31): S0..S3 hold no value, the flags are 0. The port is idle. -/
def State.resetOf (c : Config) : State where
  cfg := c
  s0 := none
  s1 := none
  s2 := none
  s3 := none
  seeded := false
  faulted := false
  faultCode := 0
  inbox := []
  responses := []

/-- The machine right after reset (R31), for the build `Config.reference` (log entry 1). -/
def State.reset : State := State.resetOf Config.reference

end Sys2Proof.Machine
end

