-- ==== Sys2Proof/Machine/Flags.lean ====
section
/-! DEFINITION. The status items of 10_state.md: the fault codes (60_exceptions.md R130) and the STATUS word (R28). The
block has no arithmetic flags (R27), so no instruction computes one. -/

namespace Sys2Proof.Machine

/-- The four fault causes (R130). -/
inductive FaultCause where
  | seedLength
  | notSeeded
  | illegalOpcode
  | reservedField
  deriving DecidableEq, Repr

/-- The code a cause leaves in FAULT_CODE (R130). -/
def faultCodeOf : FaultCause → BitVec 4
  | .seedLength => 1
  | .notSeeded => 2
  | .illegalOpcode => 3
  | .reservedField => 4

/-- The response code OK (20_memory.md R48). -/
def codeOk : BitVec 8 := 0x00

/-- The response code REJECTED_FAULTED (R48, 60_exceptions.md R137). -/
def codeRejected : BitVec 8 := 0x0F

/-- The response code of a command that faults: its fault code (R48, R136). -/
def codeOfFault (c : FaultCause) : BitVec 8 := (faultCodeOf c).setWidth 8

/-- The LANES field: 0 for P_N = 4, 1 for P_N = 8 (R28). -/
def lanesField : LaneCount → BitVec 32
  | .four => 0
  | .eight => 1

/-- The VARIANT field: 0 for PLUS, 1 for PLUSPLUS (R28). -/
def variantField : Variant → BitVec 32
  | .plus => 0
  | .plusPlus => 1

/-- The BACKEND field: 0 for PORTABLE, 1 for HW_SPECIFIC (R28). -/
def backendField : Backend → BitVec 32
  | .portable => 0
  | .hwSpecific => 1

/-- A flag as a 32-bit field. -/
def flagField (b : Bool) : BitVec 32 := (BitVec.ofBool b).setWidth 32

/-- The STATUS word, by the pseudocode of R28. -/
def State.statusWord (s : State) : BitVec 32 :=
  flagField s.seeded ||| (flagField s.faulted <<< 1) ||| (s.faultCode.setWidth 32 <<< 4) |||
    (lanesField s.cfg.lanes <<< 8) ||| (variantField s.cfg.variant <<< 9) |||
    (backendField s.cfg.backend <<< 10) ||| ((0x01 : BitVec 32) <<< 24)

end Sys2Proof.Machine
end

