-- ==== Sys2Proof/Machine/Operands.lean ====
section
/-! DEFINITION. A command's operands: the checks of its RSV and LEN fields (60_exceptions.md R131, R134, R135) and the
register-major seed payload (20_memory.md R45). -/

namespace Sys2Proof.Machine

/-- The field fault of a SEED: RSV first, then LEN against 32·P_N (R131, R134, R135). -/
def seedFieldFault (n : Nat) (rsv : BitVec 8) (len : Nat) : Option FaultCause :=
  if rsv ≠ 0 then some .reservedField
  else if len ≠ 32 * n then some .seedLength
  else none

/-- The field fault of a command without payload: RSV first, then LEN against 0; both are RESERVED_FIELD (R134, R135). -/
def bareFieldFault (rsv : BitVec 8) (len : Nat) : Option FaultCause :=
  if rsv ≠ 0 then some .reservedField
  else if len ≠ 0 then some .reservedField
  else none

/-- Lane j of register Sk in a seed payload: LE64(Payload(8·(k·P_N + j), 8)) (R45). -/
def seedWord (n : Nat) (payload : List Byte) (k j : Nat) : Word := le64 (slice payload (8 * (k * n + j)) 8)

/-- Register Sk, lanes 0 to P_N − 1, from a seed payload (R45). -/
def seedReg (n : Nat) (payload : List Byte) (k : Nat) : List Word :=
  (List.range n).map (seedWord n payload k)

end Sys2Proof.Machine
end

