-- ==== Sys2Proof/Machine/Ops.lean ====
section
/-! DEFINITION. The named operations on the state: responding, fault entry (60_exceptions.md R136), rejection (R137),
reset (70_reset_and_hazards.md R150), and reading and writing the lane registers. The block has no return from a fault
(R138): reset is the only way out of the faulted state. -/

namespace Sys2Proof.Machine

/-- `Respond(code, data)` (00_scope.md R12, 20_memory.md R48). -/
def State.respond (s : State) (code : BitVec 8) (data : List Byte) : State :=
  { s with responses := s.responses ++ [⟨code, data⟩] }

/-- S0..S3 <- no value (10_state.md R23). -/
def State.dropLanes (s : State) : State :=
  { s with s0 := none, s1 := none, s2 := none, s3 := none }

/-- Fault entry, `raise Fault(code)` (R136). -/
def State.raise (s : State) (c : FaultCause) : State :=
  { s.dropLanes with faulted := true, faultCode := faultCodeOf c, seeded := false }.respond (codeOfFault c) []

/-- A command the faulted block rejects: no state changes, response 0x0F (R137). -/
def State.reject (s : State) : State := s.respond codeRejected []

/-- The reset event (R150). The port's two ends are the host's and stay as they are (log entry 6). -/
def State.resetBlock (s : State) : State :=
  { s.dropLanes with seeded := false, faulted := false, faultCode := 0 }

/-- Lane tuples from the four registers, lane 0 first (10_state.md R21). -/
def gatherLanes : List Word → List Word → List Word → List Word → List Lane
  | a :: as, b :: bs, c :: cs, d :: ds => ⟨a, b, c, d⟩ :: gatherLanes as bs cs ds
  | _, _, _, _ => []

/-- Reading S0..S3 whole: the P_N lane states, or nothing where a register does not hold P_N lanes (R20, R23). -/
def State.lanes (s : State) : Option (List Lane) :=
  match s.s0, s.s1, s.s2, s.s3 with
  | some a, some b, some c, some d =>
    if a.length = s.cfg.n ∧ b.length = s.cfg.n ∧ c.length = s.cfg.n ∧ d.length = s.cfg.n then
      some (gatherLanes a b c d)
    else none
  | _, _, _, _ => none

/-- Writing S0..S3 back, lane 0 first (R20, R21). -/
def State.setLanes (s : State) (ls : List Lane) : State :=
  { s with
    s0 := some (ls.map Lane.s0)
    s1 := some (ls.map Lane.s1)
    s2 := some (ls.map Lane.s2)
    s3 := some (ls.map Lane.s3) }

/-- Lane j's state, where the registers hold values (R21). -/
def State.lane (s : State) (j : Nat) : Option Lane := s.lanes.bind fun ls => ls[j]?

/-- The writes of a SEED that completes: all of S0..S3 from the payload, and SEEDED (40_seed.md R80, R81). -/
def State.loadSeed (s : State) (payload : List Byte) : State :=
  { s with
    s0 := some (seedReg s.cfg.n payload 0)
    s1 := some (seedReg s.cfg.n payload 1)
    s2 := some (seedReg s.cfg.n payload 2)
    s3 := some (seedReg s.cfg.n payload 3)
    seeded := true }

/-- The opening of every command but STATUS: a faulted block rejects it, a field fault is taken, else it is performed
(60_exceptions.md R135, R137). -/
def guarded (fieldFault : Option FaultCause) (body : State → Host.Outcome State Fault Refusal) (s : State) :
    Host.Outcome State Fault Refusal :=
  if s.faulted then .next s.reject
  else
    match fieldFault with
    | some c => .next (s.raise c)
    | none => body s

/-- The effect of a draw on lanes that hold values: every lane's word, converted, is the response; every lane advances
once (41_advance.md R94 to R96). -/
def State.drawLanes (s : State) (convert : Word → Word) (ls : List Lane) : State :=
  (s.setLanes (ls.map advance)).respond codeOk
    (vectorBytes (ls.map fun l => convert (outWord s.cfg.variant l)))

/-- A draw past its field checks: NOT_SEEDED where SEEDED is 0 (60_exceptions.md R132), else every lane is drawn. -/
def drawChecked (convert : Word → Word) (s : State) : Host.Outcome State Fault Refusal :=
  if s.seeded = false then .next (s.raise .notSeeded)
  else
    match s.lanes with
    | some ls => .next (s.drawLanes convert ls)
    | none => .fault .noValue

/-- A draw command: the checks of R135, then the draw, its words passed through `convert`. -/
def draw (convert : Word → Word) (rsv : BitVec 8) (payload : List Byte) (s : State) :
    Host.Outcome State Fault Refusal :=
  guarded (bareFieldFault rsv payload.length) (drawChecked convert) s

end Sys2Proof.Machine
end

