-- ==== Sys2Proof/Machine/Draw.lean ====
section
/-! DEFINITION. The two draws: NEXT.U64 (41_advance.md R95) and NEXT.F64 (42_convert.md R114). -/

namespace Sys2Proof.Machine

/-- NEXT.U64 (R95): one 64-bit word per lane, and every lane advances once. -/
def execNextU64 (rsv : BitVec 8) (payload : List Byte) (s : State) : Host.Outcome State Fault Refusal :=
  draw id rsv payload s

/-- NEXT.F64 (R114): one binary64 value in [0, 1) per lane, and every lane advances once. -/
def execNextF64 (rsv : BitVec 8) (payload : List Byte) (s : State) : Host.Outcome State Fault Refusal :=
  draw u2d rsv payload s

end Sys2Proof.Machine
end

