-- ==== Sys2Proof/Machine/Seed.lean ====
section
/-! DEFINITION. SEED, the construction command (40_seed.md), and the sub-seed of a lane (R83). -/

namespace Sys2Proof.Machine

/-- SEED (R80): load every lane from the payload and set SEEDED. Nothing but RSV and the length is checked (R82). -/
def execSeed (rsv : BitVec 8) (payload : List Byte) (s : State) : Host.Outcome State Fault Refusal :=
  guarded (seedFieldFault s.cfg.n rsv payload.length)
    (fun s => .next ((s.loadSeed payload).respond codeOk [])) s

/-- The sub-seed of a lane: the 32 bytes of its state (R83). -/
def subSeed (l : Lane) : List Byte := le64bytes l.s0 ++ le64bytes l.s1 ++ le64bytes l.s2 ++ le64bytes l.s3

end Sys2Proof.Machine
end

