-- ==== Sys2Proof/Machine/Status.lean ====
section
/-! DEFINITION. STATUS (43_status.md). -/

namespace Sys2Proof.Machine

/-- STATUS (R120): on a faulted block every word but the exact 0x00000004 is rejected; on another, a non-zero RSV or LEN
is RESERVED_FIELD; else the STATUS word is the response (R121). -/
def execStatus (rsv : BitVec 8) (payload : List Byte) (s : State) : Host.Outcome State Fault Refusal :=
  if s.faulted ∧ (rsv ≠ 0 ∨ payload.length ≠ 0) then .next s.reject
  else
    match bareFieldFault rsv payload.length with
    | some c => .next (s.raise c)
    | none => .next (s.respond codeOk (le32bytes s.statusWord))

end Sys2Proof.Machine
end

