-- ==== Sys2Proof/Machine/Dispatch.lean ====
section
/-! DEFINITION. One arm per command. -/

namespace Sys2Proof.Machine

def exec (i : Instr) (s : State) : Host.Outcome State Fault Refusal :=
  match i with
  | .seed rsv payload => Sys2Proof.Machine.execSeed rsv payload s
  | .nextU64 rsv payload => Sys2Proof.Machine.execNextU64 rsv payload s
  | .nextF64 rsv payload => Sys2Proof.Machine.execNextF64 rsv payload s
  | .status rsv payload => Sys2Proof.Machine.execStatus rsv payload s

end Sys2Proof.Machine
end

