-- ==== Sys2Proof/Machine/Port.lean ====
section
/-! DEFINITION. A host step on the port: a transaction (20_memory.md R41), a reset, a reset during a transaction
(70_reset_and_hazards.md R150, R151). -/

namespace Sys2Proof.Machine

/-- A word whose OPC names no command: ILLEGAL_OPCODE whatever its RSV and LEN, or rejected where the block is already
faulted (60_exceptions.md R133, R135, R137). It is no row of the opcode table, so it has no arm in exec (log entry 9). -/
def illegalCommand (s : State) : Host.Outcome State Fault Refusal :=
  if s.faulted then .next s.reject else .next (s.raise .illegalOpcode)

/-- One transaction: the command is decoded and performed. A payload of a length other than LEN has no move (R42, R54). -/
def transact (cmd : CmdWord) (payload : List Byte) (s : State) : Host.Outcome State Fault Refusal :=
  match decodeCommand cmd payload with
  | .ok i => exec i s
  | .error .illegalOpcode => illegalCommand s
  | .error .payloadLength => .refused .payloadLength
  | .error .truncated => .refused .payloadLength

/-- A reset during a transaction discards it: no response, none of its effects (R151). More than LEN delivered bytes
have no move (R42). -/
def resetInTransaction (cmd : CmdWord) (delivered : List Byte) (s : State) : Host.Outcome State Fault Refusal :=
  if cmdLen cmd < delivered.length then .refused .payloadLength else .next s.resetBlock

/-- One host step (R54, R159). -/
def hostStep (h : HostStep) (s : State) : Host.Outcome State Fault Refusal :=
  match h with
  | .command cmd payload => transact cmd payload s
  | .reset => .next s.resetBlock
  | .resetDuring cmd delivered => resetInTransaction cmd delivered s

/-- The machine with other host steps to come. -/
def State.setInbox (s : State) (hs : List HostStep) : State := { s with inbox := hs }

/-- The machine with a transaction presented as the host's next step. -/
def State.present (s : State) (cmd : CmdWord) (payload : List Byte) : State :=
  s.setInbox (.command cmd payload :: s.inbox)

end Sys2Proof.Machine
end

