-- ==== Sys2Proof/Machine/Step.lean ====
section
/-! DEFINITION. The step: the host's next step is taken from the inbox and performed, one at a time in issue order
(20_memory.md R50). With no step to come the block waits (70_reset_and_hazards.md R152, R159). -/

namespace Sys2Proof.Machine

def step (s : State) : Host.Outcome State Fault Refusal :=
  match s.inbox with
  | [] => .next s
  | h :: rest => hostStep h (s.setInbox rest)

/-- `s` with a table word as the host's next transaction, its payload the zero bytes its LEN asks for (log entry 4). -/
def State.withFetchWord (s : State) (nbits w : Nat) : State :=
  s.present (tableCommand nbits w) (tablePayload nbits w)

end Sys2Proof.Machine
end

