-- ==== Sys2Proof/Machine/Assembler.lean ====
section
/-! DEFINITION. The assembler of 30_encoding.md: its statements (R65), the pseudo-instructions SEED.LANES, NEXT.WIDE.I
and NEXT.WIDE.F (R66, R68, R69), and what it refuses (R65 to R67). Where R65 leaves the text's form open, log entry 11
says what is read. -/

namespace Sys2Proof.Machine

/-- A statement of a line (R65, R66, R68, R69), its literals as read. -/
inductive Asm where
  | seed (ws : List Nat)
  | seedLanes (tuples : List (List Nat))
  | nextU64
  | nextF64
  | status
  | nextWideI
  | nextWideF
  | raw (c : Nat) (bytes : List Nat)
  deriving DecidableEq, Repr

/-- Why the assembler refuses a line. -/
inductive AsmError where
  /-- A SEED with other than 4·P_N words (R65). -/
  | wordCount
  /-- A literal outside its range: [0, 2^64) for a SEED word (R65); for .raw, 32 bits and 8 (log entry 11). -/
  | literalRange
  /-- A SEED.LANES with other than P_N tuples (R66). -/
  | tupleCount
  /-- A SEED.LANES tuple of other than four words (R66). -/
  | tupleSize
  /-- A .raw whose number of bytes is not its word's LEN field (R65). -/
  | rawLength
  /-- A word that is no mnemonic, NEXT with no suffix among them (R67). -/
  | unknownMnemonic
  /-- Operands that have not the statement's form (R65). -/
  | badOperands
  deriving DecidableEq, Repr

/-- The words of SEED.LANES in payload order: word k·P_N + j is element k of tuple j (R66). -/
def transposeLanes (tuples : List (List Nat)) : List Nat :=
  (List.range 4).flatMap fun k => tuples.map fun t => t.getD k 0

/-- What `SEED w0, …` assembles to: the word with LEN 32·P_N and the words as little-endian bytes (R65). -/
def assembleSeed (c : Config) (ws : List Nat) : Except AsmError (CmdWord × List Byte) :=
  if ws.length ≠ 4 * c.n then .error .wordCount
  else if ws.any (fun w => 2 ^ 64 ≤ w) then .error .literalRange
  else .ok (packCommand 0x01 0 (BitVec.ofNat 16 (32 * c.n)), vectorBytes (ws.map (BitVec.ofNat 64)))

/-- What `SEED.LANES …` assembles to: the SEED of the transposed words (R66). -/
def assembleSeedLanes (c : Config) (tuples : List (List Nat)) : Except AsmError (CmdWord × List Byte) :=
  if tuples.length ≠ c.n then .error .tupleCount
  else if tuples.any (fun t => t.length ≠ 4) then .error .tupleSize
  else assembleSeed c (transposeLanes tuples)

/-- What `.raw` assembles to: the word and the bytes given. Of the encoding the number of bytes alone is checked (R65); a
literal that is no 32-bit word or no byte is refused (log entry 11). -/
def assembleRaw (c : Nat) (bytes : List Nat) : Except AsmError (CmdWord × List Byte) :=
  if 2 ^ 32 ≤ c ∨ bytes.any (fun b => 2 ^ 8 ≤ b) then .error .literalRange
  else if bytes.length ≠ cmdLen (BitVec.ofNat 32 c) then .error .rawLength
  else .ok (BitVec.ofNat 32 c, bytes.map (BitVec.ofNat 8))

/-- What a statement assembles to (R65, R66, R68, R69). -/
def assemble (c : Config) : Asm → Except AsmError (CmdWord × List Byte)
  | .seed ws => assembleSeed c ws
  | .seedLanes ts => assembleSeedLanes c ts
  | .nextU64 => .ok (0x00000002, [])
  | .nextF64 => .ok (0x00000003, [])
  | .status => .ok (0x00000004, [])
  | .nextWideI => .ok (0x00000002, [])
  | .nextWideF => .ok (0x00000003, [])
  | .raw w bytes => assembleRaw w bytes

/-- A token of a line. -/
inductive Token where
  | word (cs : List Char)
  | comma
  | lparen
  | rparen
  deriving DecidableEq, Repr

/-- Ends the word being read, its characters in `acc` last first. -/
def flushWord (acc : List Char) (ts : List Token) : List Token :=
  if acc.isEmpty then ts else .word acc.reverse :: ts

/-- The tokens of a line, up to its comment (R65). -/
def lexLine : List Char → List Char → List Token
  | [], acc => flushWord acc []
  | c :: cs, acc =>
    if c = ';' then flushWord acc []
    else if c.isWhitespace then flushWord acc (lexLine cs [])
    else if c = ',' then flushWord acc (.comma :: lexLine cs [])
    else if c = '(' then flushWord acc (.lparen :: lexLine cs [])
    else if c = ')' then flushWord acc (.rparen :: lexLine cs [])
    else lexLine cs (c :: acc)

/-- The value of a digit, in either case. -/
def digitValue (c : Char) : Option Nat :=
  if '0' ≤ c ∧ c ≤ '9' then some (c.toNat - '0'.toNat)
  else if 'a' ≤ c ∧ c ≤ 'f' then some (c.toNat - 'a'.toNat + 10)
  else if 'A' ≤ c ∧ c ≤ 'F' then some (c.toNat - 'A'.toNat + 10)
  else none

/-- A run of digits in a base. -/
def readDigits (base : Nat) : List Char → Nat → Option Nat
  | [], acc => some acc
  | c :: cs, acc =>
    match digitValue c with
    | some d => if d < base then readDigits base cs (acc * base + d) else none
    | none => none

/-- An unsigned literal, decimal or 0x hexadecimal (R65). -/
def readNumber : List Char → Option Nat
  | [] => none
  | ['0', 'x'] => none
  | '0' :: 'x' :: cs => readDigits 16 cs 0
  | cs => readDigits 10 cs 0

/-- Literals with commas between them. -/
def readList : List Token → Option (List Nat)
  | [.word w] => (readNumber w).map fun n => [n]
  | .word w :: .comma :: ts =>
    match readNumber w, readList ts with
    | some n, some ns => some (n :: ns)
    | _, _ => none
  | _ => none

/-- Literals with nothing between them, as .raw's bytes stand (R65). -/
def readRun : List Token → Option (List Nat)
  | [] => some []
  | .word w :: ts =>
    match readNumber w, readRun ts with
    | some n, some ns => some (n :: ns)
    | _, _ => none
  | _ => none

/-- Where a reading of tuples stands: before one, inside one with its tokens last first, or after one. -/
inductive TupleMode where
  | before
  | inside (acc : List Token)
  | after
  deriving DecidableEq, Repr

/-- Tuples with commas between them (R66). -/
def readTuples : List Token → TupleMode → Option (List (List Nat))
  | [], .after => some []
  | .lparen :: ts, .before => readTuples ts (.inside [])
  | .rparen :: ts, .inside acc =>
    match readList acc.reverse, readTuples ts .after with
    | some t, some rest => some (t :: rest)
    | _, _ => none
  | .comma :: ts, .after => readTuples ts .before
  | .comma :: ts, .inside acc => readTuples ts (.inside (.comma :: acc))
  | .word w :: ts, .inside acc => readTuples ts (.inside (.word w :: acc))
  | _, _ => none

/-- The operands of .raw: the command word, then the payload bytes after a comma (R65). -/
def readRaw : List Token → Option Asm
  | [.word w] => (readNumber w).map fun c => .raw c []
  | .word w :: .comma :: t :: ts =>
    match readNumber w, readRun (t :: ts) with
    | some c, some bs => some (.raw c bs)
    | _, _ => none
  | _ => none

/-- A statement that takes no operands. -/
def bareAsm (a : Asm) : List Token → Except AsmError Asm
  | [] => .ok a
  | _ => .error .badOperands

/-- An operand reading, refused where it fails. -/
def readOr (a : Option Asm) : Except AsmError Asm :=
  match a with
  | some a => .ok a
  | none => .error .badOperands

/-- The statement a mnemonic and its operands make; the mnemonic is compared in lower case (R65). -/
def readStatement (mnemonic : List Char) (ops : List Token) : Except AsmError Asm :=
  let m := mnemonic.map Char.toLower
  if m = ['s', 'e', 'e', 'd'] then
    readOr (if ops.isEmpty then some (.seed []) else (readList ops).map .seed)
  else if m = ['s', 'e', 'e', 'd', '.', 'l', 'a', 'n', 'e', 's'] then
    readOr (if ops.isEmpty then some (.seedLanes []) else (readTuples ops .before).map .seedLanes)
  else if m = ['n', 'e', 'x', 't', '.', 'u', '6', '4'] then bareAsm .nextU64 ops
  else if m = ['n', 'e', 'x', 't', '.', 'f', '6', '4'] then bareAsm .nextF64 ops
  else if m = ['s', 't', 'a', 't', 'u', 's'] then bareAsm .status ops
  else if m = ['n', 'e', 'x', 't', '.', 'w', 'i', 'd', 'e', '.', 'i'] then bareAsm .nextWideI ops
  else if m = ['n', 'e', 'x', 't', '.', 'w', 'i', 'd', 'e', '.', 'f'] then bareAsm .nextWideF ops
  else if m = ['.', 'r', 'a', 'w'] then readOr (readRaw ops)
  else .error .unknownMnemonic

/-- The statement of a line, or none where the line holds nothing but a comment (R65). -/
def readLine (line : List Char) : Except AsmError (Option Asm) :=
  match lexLine line [] with
  | [] => .ok none
  | .word m :: ops =>
    match readStatement m ops with
    | .ok a => .ok (some a)
    | .error e => .error e
  | _ => .error .badOperands

/-- The transactions of a program's lines, in order, or the first refusal (R65). -/
def assembleLines (c : Config) : List (List Char) → Except AsmError (List HostStep)
  | [] => .ok []
  | line :: rest =>
    match readLine line, assembleLines c rest with
    | .error e, _ => .error e
    | .ok none, r => r
    | .ok (some a), r =>
      match assemble c a, r with
      | .error e, _ => .error e
      | .ok (w, p), .ok steps => .ok (.command w p :: steps)
      | .ok _, .error e => .error e

end Sys2Proof.Machine
end

