-- ==== Sys2Proof/Machine/Scalar.lean ====
section
/-! DEFINITION. The single-stream scalar generator that one lane is compared with (41_advance.md R99, N16): rules R90 to
R92 applied to one lane, from its sub-seed (40_seed.md R83). No command of the block reads this file. -/

namespace Sys2Proof.Machine

/-- `Advance^k` (R100). -/
def advanceN : Nat → Lane → Lane
  | 0, l => l
  | k + 1, l => advanceN k (advance l)

/-- The k-th word of the scalar generator from a state, counted from 0 (R94, R99). -/
def scalarWord (v : Variant) (l : Lane) (k : Nat) : Word := outWord v (advanceN k l)

/-- The scalar generator's first words (R99). -/
def scalarWords (v : Variant) : Nat → Lane → List Word
  | 0, _ => []
  | k + 1, l => outWord v l :: scalarWords v k (advance l)

/-- The lane state a 32-byte sub-seed gives: four little-endian words (R83). -/
def laneOfSubSeed (bs : List Byte) : Lane :=
  ⟨le64 (slice bs 0 8), le64 (slice bs 8 8), le64 (slice bs 16 8), le64 (slice bs 24 8)⟩

/-- The sub-seed of lane j in a register-major seed payload: 8 bytes each from 8j, 8(P_N + j), 8(2P_N + j) and
8(3P_N + j) (R83). -/
def subSeedIn (n : Nat) (payload : List Byte) (j : Nat) : List Byte :=
  slice payload (8 * j) 8 ++ slice payload (8 * (n + j)) 8 ++ slice payload (8 * (2 * n + j)) 8 ++
    slice payload (8 * (3 * n + j)) 8

/-- The two draws of a stream (R99, R100). -/
inductive DrawKind where
  | u64
  | f64
  deriving DecidableEq, Repr

/-- The command of a draw (R62). -/
def drawInstr : DrawKind → Instr
  | .u64 => .nextU64 0 []
  | .f64 => .nextF64 0 []

/-- What a draw makes of the lane's word (R95, R114). -/
def drawConvert : DrawKind → Word → Word
  | .u64 => id
  | .f64 => u2d

/-- The host step that issues a well-formed command. -/
def commandStep (i : Instr) : HostStep := .command (encodeCommand i) i.payload

/-- Lane j's word in a draw's response: `LE64` of bytes 8j .. 8j+7 (20_memory.md R46). -/
def responseWord (data : List Byte) (j : Nat) : Word := le64 (slice data (8 * j) 8)

end Sys2Proof.Machine
end

