-- ==== Sys2Proof/Safety.lean ====
section
/-! DEFINITION. The invariant of the block's state, the form of a response, and what a run shows. -/

namespace Sys2Proof.Machine

/-- Whether a register holds a value of `n` lanes. -/
def holdsLanes (n : Nat) : Option (List Word) → Bool
  | some l => l.length == n
  | none => false

/-- S0..S3 hold values of P_N lanes each (10_state.md R20, R23). -/
def State.lanesHeld (s : State) : Bool :=
  holdsLanes s.cfg.n s.s0 && holdsLanes s.cfg.n s.s1 && holdsLanes s.cfg.n s.s2 && holdsLanes s.cfg.n s.s3

/-- S0..S3 hold no value (10_state.md R23). -/
def State.noLanes (s : State) : Bool :=
  s.s0.isNone && s.s1.isNone && s.s2.isNone && s.s3.isNone

/-- The invariant of the block. S0..S3 hold values if and only if SEEDED = 1 (R23); a faulted block is not seeded (R136);
FAULT_CODE is NONE exactly while FAULTED = 0 and never above 4 (R26, R130). -/
structure State.Inv (s : State) : Prop where
  lanes_iff_seeded : if s.seeded then s.lanesHeld = true else s.noLanes = true
  faulted_unseeded : s.faulted = true → s.seeded = false
  code_iff_faulted : s.faulted = false ↔ s.faultCode = 0
  code_legal : s.faultCode ≤ 4

/-- Register Sk, k from 0 to 3 (10_state.md R20). -/
def State.reg (s : State) : Nat → Option (List Word)
  | 0 => s.s0
  | 1 => s.s1
  | 2 => s.s2
  | 3 => s.s3
  | _ => none

/-- `t` is `s` after `raise Fault(code)` and nothing else (60_exceptions.md R136). -/
structure State.FaultEntered (s t : State) (code : BitVec 4) : Prop where
  faulted : t.faulted = true
  faultCode : t.faultCode = code
  seeded : t.seeded = false
  noLanes : t.s0 = none ∧ t.s1 = none ∧ t.s2 = none ∧ t.s3 = none
  response : t.responses = s.responses ++ [⟨code.setWidth 8, []⟩]
  cfg : t.cfg = s.cfg
  inbox : t.inbox = s.inbox

/-- The same state in a build of another backend (00_scope.md R7). -/
def State.withBackend (s : State) (b : Backend) : State := { s with cfg := { s.cfg with backend := b } }

/-- The response codes the block returns (20_memory.md R48). -/
def legalCodes : List (BitVec 8) := [0x00, 0x01, 0x02, 0x03, 0x04, 0x0F]

/-- What a run shows of its final state: SEEDED, FAULTED, FAULT_CODE and S0..S3 where they hold values, beside the
responses in issue order (70_reset_and_hazards.md R159). -/
structure Observation where
  responses : List Response
  seeded : Bool
  faulted : Bool
  faultCode : BitVec 4
  s0 : Option (List Word)
  s1 : Option (List Word)
  s2 : Option (List Word)
  s3 : Option (List Word)
  deriving DecidableEq, Repr

/-- The observation of a run that ends in `s` (R159). -/
def State.observation (s : State) : Observation :=
  ⟨s.responses, s.seeded, s.faulted, s.faultCode, s.s0, s.s1, s.s2, s.s3⟩

/-- A faulted run is one whose final state has FAULTED = 1 (R159); a safe run is one that is not. -/
def State.safe (s : State) : Bool := !s.faulted

end Sys2Proof.Machine
end

