-- ==== Sys2Proof/Certificates/Slice0/Obligations.lean ====
section
/-! DEFINITION. The statements for the provers, each from the numbered rules of spec/ its docstring names. A statement
about a state holds for all eight configurations, since the configuration is a field of the state. That a host step is
the head of `inbox` and a response the end of `responses` is the model's port (log entry 3). -/

open Sys2Proof Sys2Proof.Machine

/-! ### Reset -/

/-- R150: a reset event leaves S0..S3 without value and the flags 0, and changes neither the configuration nor the
constant STATUS fields (bits 31:8), whatever the state before. -/
def Obligations.ResetClearsTheBlock : Prop :=
  ∀ (s : State) (rest : List HostStep), s.inbox = .reset :: rest →
    ∃ t, step s = .next t ∧ t.seeded = false ∧ t.faulted = false ∧ t.faultCode = 0 ∧
      t.s0 = none ∧ t.s1 = none ∧ t.s2 = none ∧ t.s3 = none ∧ t.cfg = s.cfg ∧
      t.statusWord.extractLsb' 8 24 = s.statusWord.extractLsb' 8 24

/-- R151: a reset during a transaction gives no response and leaves the state a reset between transactions leaves,
whatever the transaction would have done. That the host's remaining steps and the responses already given stay is the
model's choice (log entry 6). -/
def Obligations.ResetDiscardsATransaction : Prop :=
  ∀ (s : State) (cmd : CmdWord) (delivered : List Byte) (rest : List HostStep),
    s.inbox = .resetDuring cmd delivered :: rest → delivered.length ≤ cmdLen cmd →
    ∃ t, step s = .next t ∧ step (s.setInbox (.reset :: rest)) = .next t ∧
      t.responses = s.responses ∧ t.inbox = rest ∧
      t.seeded = false ∧ t.faulted = false ∧ t.faultCode = 0 ∧
      t.s0 = none ∧ t.s1 = none ∧ t.s2 = none ∧ t.s3 = none

/-- R152, R159: a block with no command presented does nothing. That the step then leaves the state as it is, and stops
not, is read from these rules (log entry 7). -/
def Obligations.IdleBlockWaits : Prop :=
  ∀ s : State, s.inbox = [] → step s = .next s

/-- R31, R23: the state after reset of every build meets the invariant, shows no generator and has given no response;
`State.reset` is that of the build named in log entry 1. -/
def Obligations.ResetStateMeetsInvariant : Prop :=
  (∀ c : Config, (State.resetOf c).Inv ∧ (State.resetOf c).seeded = false ∧
    (State.resetOf c).faulted = false ∧ (State.resetOf c).noLanes = true ∧ (State.resetOf c).responses = [] ∧
    (State.resetOf c).cfg = c) ∧
  State.reset.Inv ∧ State.reset = State.resetOf Config.reference

/-! ### Encoding -/

/-- R42, R44, R60, R62, in the byte form of log entry 16: decoding the bytes of any command the port can express gives
the command back and leaves the bytes after it; every RSV value, every payload and every opcode is covered. -/
def Obligations.DecodeOfEncode : Prop :=
  ∀ (i : Instr) (rest : List Byte), i.wellFormed = true → decode (encode i ++ rest) = .ok (i, rest)

/-- R60, R62, in the byte form of log entry 16: whatever bytes decode to a command are that command's own encoding, so
no bit is ignored. -/
def Obligations.EncodeOfDecode : Prop :=
  ∀ (bs : List Byte) (i : Instr) (rest : List Byte), decode bs = .ok (i, rest) →
    i.wellFormed = true ∧ bs = encode i ++ rest

/-- R60, R62, R63: decoding is by OPC, the low byte, alone; RSV is the second byte, LEN the upper half; OPC 0 and 5 to
255 name no command. -/
def Obligations.DecodingIsByOpcodeAlone : Prop :=
  ∀ (cmd : CmdWord) (payload : List Byte), payload.length = cmd.toNat / 2 ^ 16 →
    let rsv := BitVec.ofNat 8 (cmd.toNat / 2 ^ 8)
    (cmd.toNat % 2 ^ 8 = 1 → decodeCommand cmd payload = .ok (.seed rsv payload)) ∧
    (cmd.toNat % 2 ^ 8 = 2 → decodeCommand cmd payload = .ok (.nextU64 rsv payload)) ∧
    (cmd.toNat % 2 ^ 8 = 3 → decodeCommand cmd payload = .ok (.nextF64 rsv payload)) ∧
    (cmd.toNat % 2 ^ 8 = 4 → decodeCommand cmd payload = .ok (.status rsv payload)) ∧
    (cmd.toNat % 2 ^ 8 = 0 ∨ 4 < cmd.toNat % 2 ^ 8 → decodeCommand cmd payload = .error .illegalOpcode)

/-- R62: the complete words of the legal commands decode to them, SEED's with any payload of 128 bytes for four lanes
and of 256 bytes for eight. -/
def Obligations.LegalWordsDecode : Prop :=
  (∀ p : List Byte, p.length = 128 → decodeCommand 0x00800001 p = .ok (.seed 0 p)) ∧
  (∀ p : List Byte, p.length = 256 → decodeCommand 0x01000001 p = .ok (.seed 0 p)) ∧
  decodeCommand 0x00000002 [] = .ok (.nextU64 0 []) ∧
  decodeCommand 0x00000003 [] = .ok (.nextF64 0 []) ∧
  decodeCommand 0x00000004 [] = .ok (.status 0 [])

/-- R63 and spec/opcode_table.json: a word that belongs to a row of the table under its mask decodes to that row's
command with RSV 0, and belongs to no other row. -/
def Obligations.TableRowsDecode : Prop :=
  ∀ (r : OpcodeRow) (cmd : CmdWord) (payload : List Byte), r ∈ opcodeTable → r.matches cmd = true →
    payload.length = cmdLen cmd →
    (∃ i, decodeCommand cmd payload = .ok i ∧ i.mnemonic = r.mnemonic ∧ i.rsv = 0 ∧ i.payload = payload) ∧
    ∀ r' ∈ opcodeTable, r'.matches cmd = true → r' = r

/-! ### A step -/

/-- R41, R50: when the host's next transaction decodes to a command, the step is that command's exec, on the state
whose inbox has moved past it. -/
def Obligations.StepRunsTheDecodedCommand : Prop :=
  ∀ (s : State) (cmd : CmdWord) (payload : List Byte) (rest : List HostStep) (i : Instr),
    s.inbox = .command cmd payload :: rest → decodeCommand cmd payload = .ok i →
    step s = exec i (s.setInbox rest)

/-- R42, R54, I8: a payload of a length other than LEN has no move; the refusal is log entry 5's. -/
def Obligations.WrongPayloadLengthHasNoMove : Prop :=
  ∀ (s : State) (cmd : CmdWord) (payload : List Byte) (rest : List HostStep),
    s.inbox = .command cmd payload :: rest → payload.length ≠ cmd.toNat / 2 ^ 16 →
    step s = .refused .payloadLength

/-- R50: the state after a sequence of host steps is the composition of the steps: running two sequences one after the
other is running the first and then, from the state it leaves, the second. -/
def Obligations.HostStepsComposeInOrder : Prop :=
  ∀ (xs ys : List HostStep) (s : State),
    Sys2Proof.core.run (xs.length + ys.length) (s.setInbox (xs ++ ys)) =
      match (Sys2Proof.core.run xs.length (s.setInbox xs) : Host.Outcome State Fault Refusal) with
      | .next t => Sys2Proof.core.run ys.length (t.setInbox ys)
      | .fault e => .fault e
      | .refused e => .refused e

/-- R30: no response is kept by the block: what earlier responses were changes neither what a command does nor its
response. -/
def Obligations.EarlierResponsesDoNotMatter : Prop :=
  ∀ (s t : State) (earlier : List Response), step s = .next t →
    step { s with responses := earlier ++ s.responses } = .next { t with responses := earlier ++ t.responses }

/-! ### Faults -/

/-- R135: the code of the one response every transaction gets, by the priority order: already faulted (all but the
exact STATUS word), illegal opcode, RSV, LEN of a command without payload, LEN of SEED, not seeded, else OK. One of the
codes 1 to 4 is a fault, then held in FAULT_CODE; no other code sets it. -/
def Obligations.FaultPriorityOrder : Prop :=
  ∀ (s : State) (cmd : CmdWord) (payload : List Byte) (rest : List HostStep), s.Inv →
    s.inbox = .command cmd payload :: rest → payload.length = cmdLen cmd →
    let opc := cmd.toNat % 2 ^ 8
    let rsv := cmd.toNat / 2 ^ 8 % 2 ^ 8
    let len := cmd.toNat / 2 ^ 16
    let code : Nat :=
      if s.faulted = true ∧ cmd ≠ 0x00000004 then 0x0F
      else if opc = 0 ∨ 4 < opc then 3
      else if rsv ≠ 0 then 4
      else if opc ≠ 1 ∧ len ≠ 0 then 4
      else if opc = 1 ∧ len ≠ 32 * s.cfg.n then 1
      else if (opc = 2 ∨ opc = 3) ∧ s.seeded = false then 2
      else 0
    ∃ t data, step s = .next t ∧ t.responses = s.responses ++ [⟨BitVec.ofNat 8 code, data⟩] ∧
      (if 1 ≤ code ∧ code ≤ 4 then t.faulted = true ∧ t.faultCode = BitVec.ofNat 4 code
       else t.faulted = s.faulted ∧ t.faultCode = s.faultCode)

/-- R136: a command that raises a fault does nothing but the fault entry: FAULTED set, the code recorded and returned
with no data, SEEDED cleared, S0..S3 without value, earlier responses kept. -/
def Obligations.FaultEntryIsPrecise : Prop :=
  ∀ (s t : State) (cmd : CmdWord) (payload : List Byte) (rest : List HostStep) (r : Response),
    s.faulted = false → s.inbox = .command cmd payload :: rest → step s = .next t →
    t.responses = s.responses ++ [r] → r.code ≠ 0 →
    ∃ code : BitVec 4, code ≠ 0 ∧ code ≤ 4 ∧ r = ⟨code.setWidth 8, []⟩ ∧
      (s.setInbox rest).FaultEntered t code

/-- R137, R121: while FAULTED = 1 every word but 0x00000004 changes no state and is answered (0x0F, []); that word is
answered 0x00 with the STATUS word, whose bit 1 is 1 and whose bits 7:4 are the first fault's code. No second fault is
raised and FAULT_CODE keeps its code. -/
def Obligations.FaultedBlockAnswersStatusAlone : Prop :=
  ∀ (s : State) (cmd : CmdWord) (payload : List Byte) (rest : List HostStep), s.faulted = true →
    s.inbox = .command cmd payload :: rest → payload.length = cmdLen cmd →
    if cmd = 0x00000004 then
      s.statusWord.getLsbD 1 = true ∧ s.statusWord.extractLsb' 4 4 = s.faultCode ∧
        step s = .next { s with inbox := rest, responses := s.responses ++ [⟨0x00, le32bytes s.statusWord⟩] }
    else step s = .next { s with inbox := rest, responses := s.responses ++ [⟨0x0F, []⟩] }

/-- R138: no step of a faulted block but a reset clears FAULTED, and none but a reset changes FAULT_CODE, so faults do
not nest and no command returns from one; SEED is rejected while FAULTED = 1. -/
def Obligations.OnlyResetClearsTheFault : Prop :=
  (∀ s t : State, s.faulted = true → step s = .next t →
    (t.faulted = true ∧ t.faultCode = s.faultCode) ∨
    ∃ rest, s.inbox = .reset :: rest ∨ ∃ cmd d, s.inbox = .resetDuring cmd d :: rest) ∧
  (∀ (s : State) (rsv : BitVec 8) (payload : List Byte), s.faulted = true →
    exec (.seed rsv payload) s = .next { s with responses := s.responses ++ [⟨0x0F, []⟩] })

/-- R25: while FAULTED = 0 nothing but a fault entry sets it: a step after which it is 1 took a command's fault
entry. -/
def Obligations.OnlyFaultEntrySetsFaulted : Prop :=
  ∀ s t : State, s.faulted = false → step s = .next t → t.faulted = true →
    ∃ cmd payload rest code, s.inbox = .command cmd payload :: rest ∧ (s.setInbox rest).FaultEntered t code

/-- R133: every word with OPC 0 or 5 to 255 raises ILLEGAL_OPCODE on an unfaulted block, whatever its RSV, its LEN and
its payload, seeded or not. -/
def Obligations.IllegalOpcodeFaults : Prop :=
  ∀ (s : State) (cmd : CmdWord) (payload : List Byte) (rest : List HostStep), s.faulted = false →
    s.inbox = .command cmd payload :: rest → payload.length = cmdLen cmd →
    cmd.toNat % 2 ^ 8 = 0 ∨ 4 < cmd.toNat % 2 ^ 8 →
    ∃ t, step s = .next t ∧ (s.setInbox rest).FaultEntered t 3

/-- R134: RSV ≠ 0 on any command, and a payload on NEXT.U64, NEXT.F64 or STATUS, raise RESERVED_FIELD on an unfaulted
block, seeded or not. -/
def Obligations.ReservedFieldFaults : Prop :=
  ∀ (i : Instr) (s : State), s.faulted = false →
    (i.rsv ≠ 0 ∨ (i.mnemonic ≠ "SEED" ∧ i.payload ≠ [])) →
    ∃ t, exec i s = .next t ∧ s.FaultEntered t 4

/-- R131: a SEED whose LEN is not 32·P_N, 0 among them, raises SEED_LENGTH. RSV is 0 here, since RESERVED_FIELD comes
first (R135). -/
def Obligations.SeedLengthFaults : Prop :=
  ∀ (s : State) (payload : List Byte), s.faulted = false → payload.length ≠ 32 * s.cfg.n →
    ∃ t, exec (.seed 0 payload) s = .next t ∧ s.FaultEntered t 1

/-- R132: a well-formed draw while SEEDED = 0 raises NOT_SEEDED on an unfaulted block; a faulted one answers 0x0F. -/
def Obligations.UnseededDrawFaults : Prop :=
  ∀ (s : State) (k : DrawKind), s.seeded = false →
    if s.faulted then exec (drawInstr k) s = .next { s with responses := s.responses ++ [⟨0x0F, []⟩] }
    else ∃ t, exec (drawInstr k) s = .next t ∧ s.FaultEntered t 2

/-! ### SEED -/

/-- R45, R80: a SEED of 32·P_N bytes on an unfaulted block completes: word i of the payload is lane i mod P_N of
register S(i div P_N), least significant byte first, for every payload; SEEDED is set, the fault fields, the
configuration and the host's steps stay, and the response is 0x00 with no data. -/
def Obligations.SeedLoadsEveryLane : Prop :=
  ∀ (s : State) (payload : List Byte), s.faulted = false → payload.length = 32 * s.cfg.n →
    ∃ t, exec (.seed 0 payload) s = .next t ∧ t.seeded = true ∧
      t.faulted = s.faulted ∧ t.faultCode = s.faultCode ∧ t.cfg = s.cfg ∧ t.inbox = s.inbox ∧
      t.responses = s.responses ++ [⟨0x00, []⟩] ∧ t.lanesHeld = true ∧
      ∀ i < 4 * s.cfg.n, ∃ r w, t.reg (i / s.cfg.n) = some r ∧ r[i % s.cfg.n]? = some w ∧
        w.toNat = ∑ m ∈ Finset.range 8, (payload.getD (8 * i + m) 0).toNat * 2 ^ (8 * m)

/-- R80: the whole of SEED's rule: its word; rejected on a faulted block; RSV, then LEN; else lane j of Sk is
LE64(Payload(8·(k·P_N + j), 8)), SEEDED is set and nothing else changes. -/
def Obligations.SeedFollowsItsRule : Prop :=
  ∀ (s : State) (rsv : BitVec 8) (payload : List Byte),
    (payload.length = 32 * s.cfg.n →
      encodeCommand (.seed 0 payload) = if s.cfg.n = 4 then 0x00800001 else 0x01000001) ∧
    if s.faulted = true then
      exec (.seed rsv payload) s = .next { s with responses := s.responses ++ [⟨0x0F, []⟩] }
    else if rsv ≠ 0 then ∃ t, exec (.seed rsv payload) s = .next t ∧ s.FaultEntered t 4
    else if payload.length ≠ 32 * s.cfg.n then ∃ t, exec (.seed rsv payload) s = .next t ∧ s.FaultEntered t 1
    else ∃ t, exec (.seed rsv payload) s = .next t ∧ t.lanesHeld = true ∧
      (∀ k < 4, ∀ j < s.cfg.n, ∃ r, t.reg k = some r ∧
        r[j]? = some (le64 (slice payload (8 * (k * s.cfg.n + j)) 8))) ∧
      t = { s with s0 := t.s0, s1 := t.s1, s2 := t.s2, s3 := t.s3, seeded := true,
                   responses := s.responses ++ [⟨0x00, []⟩] }

/-- R82: SEED checks RSV and the length and nothing else: on an unfaulted block it is answered 0x00 exactly when
RSV = 0 and LEN = 32·P_N. -/
def Obligations.SeedChecksOnlyTheLength : Prop :=
  ∀ (s : State) (rsv : BitVec 8) (payload : List Byte), s.faulted = false →
    ∃ t code, exec (.seed rsv payload) s = .next t ∧ t.responses = s.responses ++ [⟨code, []⟩] ∧
      (code = 0 ↔ rsv = 0 ∧ payload.length = 32 * s.cfg.n)

/-- R81: nothing of the state before a SEED that completes survives in S0..S3, SEEDED, FAULTED or FAULT_CODE: two
unfaulted blocks of one build, seeded or not, are the same after it. -/
def Obligations.SeedForgetsTheEarlierState : Prop :=
  ∀ (s s' : State) (payload : List Byte), s.Inv → s'.Inv → s.cfg = s'.cfg → s.faulted = false →
    s'.faulted = false → payload.length = 32 * s.cfg.n →
    ∃ t t', exec (.seed 0 payload) s = .next t ∧ exec (.seed 0 payload) s' = .next t' ∧
      t.s0 = t'.s0 ∧ t.s1 = t'.s1 ∧ t.s2 = t'.s2 ∧ t.s3 = t'.s3 ∧ t.seeded = t'.seeded ∧
      t.faulted = t'.faulted ∧ t.faultCode = t'.faultCode

/-- R83: after a SEED, lane j's sub-seed, the 32 bytes of its four words, is gathered from the payload's bytes 8j,
8(P_N + j), 8(2P_N + j) and 8(3P_N + j), 8 from each; the scalar state those 32 bytes give is the lane's state. -/
def Obligations.SubSeedIsGatheredFromThePayload : Prop :=
  ∀ (s : State) (payload : List Byte), s.faulted = false → payload.length = 32 * s.cfg.n →
    ∃ t, exec (.seed 0 payload) s = .next t ∧ ∀ j < s.cfg.n, ∃ l, t.lane j = some l ∧
      subSeed l = subSeedIn s.cfg.n payload j ∧ laneOfSubSeed (subSeed l) = l

/-! ### The lane functions -/

/-- R90, R91: the output functions, both additions reduced mod 2^64, the sum before it is rotated by 23. -/
def Obligations.OutputFunctionsWrap : Prop :=
  ∀ l : Lane,
    (outWord .plus l).toNat = (l.s0.toNat + l.s3.toNat) % 2 ^ 64 ∧
    (let base := (l.s0.toNat + l.s3.toNat) % 2 ^ 64
     (outWord .plusPlus l).toNat = (base * 2 ^ 23 % 2 ^ 64 + base / 2 ^ 41 + l.s0.toNat) % 2 ^ 64)

/-- R11, R97: rotl by k keeps every bit: bit i of the result is bit i − k of the word, modulo 64. -/
def Obligations.RotationLosesNoBit : Prop :=
  ∀ (a : Word) (k i : Nat), 0 < k → k < 64 → i < 64 →
    (rotl a k).getLsbD i = a.getLsbD ((i + 64 - k) % 64)

/-- The closed form of Advance (R93, which the spec marks as derived from R92). -/
def Obligations.AdvanceHasClosedForm : Prop :=
  ∀ s0 s1 s2 s3 : Word, advance ⟨s0, s1, s2, s3⟩ =
    ⟨s0 ^^^ s1 ^^^ s3, s0 ^^^ s1 ^^^ s2, s0 ^^^ s2 ^^^ (s1 <<< 17), rotl (s1 ^^^ s3) 45⟩

/-- From R90 to R92 (R98 states it and marks it as derived from R92): the all-zero lane is a fixed point on which both
outputs are 0, no other state reaches it, Advance is a bijection whose inverse is the one of R98, and the equation
that inverse solves for s1 has that one solution. -/
def Obligations.AdvanceIsABijection : Prop :=
  advance ⟨0, 0, 0, 0⟩ = ⟨0, 0, 0, 0⟩ ∧ outPlus ⟨0, 0, 0, 0⟩ = 0 ∧ outPlusPlus ⟨0, 0, 0, 0⟩ = 0 ∧
  (∀ l : Lane, advance l = ⟨0, 0, 0, 0⟩ → l = ⟨0, 0, 0, 0⟩) ∧
  Function.Bijective advance ∧
  (∀ l : Lane, unadvance (advance l) = l) ∧ (∀ l : Lane, advance (unadvance l) = l) ∧
  (∀ x y : Word, x ^^^ (x <<< 17) = y ↔ x = unshift17 y)

/-! ### The draws -/

/-- R46, R94, R95, R96: on a seeded block NEXT.U64 completes: lane j's word, computed from the lane before it advances,
is bytes 8j .. 8j+7 of the data, every lane advances once, and nothing else changes. -/
def Obligations.NextU64DrawsEveryLane : Prop :=
  ∀ s : State, s.Inv → s.seeded = true →
    ∃ t data, exec (.nextU64 0 []) s = .next t ∧ t.responses = s.responses ++ [⟨0x00, data⟩] ∧
      data.length = 8 * s.cfg.n ∧ t.seeded = s.seeded ∧ t.faulted = s.faulted ∧ t.faultCode = s.faultCode ∧
      t.cfg = s.cfg ∧ t.inbox = s.inbox ∧
      ∀ j < s.cfg.n, ∃ l, s.lane j = some l ∧ t.lane j = some (advance l) ∧
        slice data (8 * j) 8 =
          le64bytes (if s.cfg.variant = .plus then outPlus l else outPlusPlus l)

/-- R46, R94, R96, R114: on a seeded block NEXT.F64 completes: lane j's word, converted by U2D, is bytes 8j .. 8j+7 of
the data, every lane advances once exactly as NEXT.U64 advances it, and nothing else changes. -/
def Obligations.NextF64DrawsEveryLane : Prop :=
  ∀ s : State, s.Inv → s.seeded = true →
    ∃ t data, exec (.nextF64 0 []) s = .next t ∧ t.responses = s.responses ++ [⟨0x00, data⟩] ∧
      data.length = 8 * s.cfg.n ∧ t.seeded = s.seeded ∧ t.faulted = s.faulted ∧ t.faultCode = s.faultCode ∧
      t.cfg = s.cfg ∧ t.inbox = s.inbox ∧
      ∀ j < s.cfg.n, ∃ l, s.lane j = some l ∧ t.lane j = some (advance l) ∧
        slice data (8 * j) 8 =
          le64bytes (u2d (if s.cfg.variant = .plus then outPlus l else outPlusPlus l))

/-- R46, R94, R95, R114: the whole of the two draws' rules: their words; rejected on a faulted block; RSV and LEN, then
SEEDED; else lane j's word, from the lane before it advances, is bytes 8j .. 8j+7 of the 8·P_N data bytes (for NEXT.F64
converted), every lane advances once, and nothing else changes. -/
def Obligations.DrawsFollowTheirRules : Prop :=
  encodeCommand (.nextU64 0 []) = 0x00000002 ∧ encodeCommand (.nextF64 0 []) = 0x00000003 ∧
  ∀ (s : State) (k : DrawKind) (rsv : BitVec 8) (payload : List Byte) (i : Instr), s.Inv →
    i = (match k with | .u64 => .nextU64 rsv payload | .f64 => .nextF64 rsv payload) →
    if s.faulted = true then exec i s = .next { s with responses := s.responses ++ [⟨0x0F, []⟩] }
    else if rsv ≠ 0 ∨ payload.length ≠ 0 then ∃ t, exec i s = .next t ∧ s.FaultEntered t 4
    else if s.seeded = false then ∃ t, exec i s = .next t ∧ s.FaultEntered t 2
    else ∃ t data, exec i s = .next t ∧ data.length = 8 * s.cfg.n ∧
      (∀ j < s.cfg.n, ∃ l, s.lane j = some l ∧ t.lane j = some (advance l) ∧
        let w := if s.cfg.variant = .plus then outPlus l else outPlusPlus l
        slice data (8 * j) 8 = le64bytes (match k with | .u64 => w | .f64 => u2d w)) ∧
      t = { s with s0 := t.s0, s1 := t.s1, s2 := t.s2, s3 := t.s3,
                   responses := s.responses ++ [⟨0x00, data⟩] }

/-- R101: a draw's legal word on a block with FAULTED = 0 and SEEDED = 1 always completes with response 0x00. -/
def Obligations.DrawsAreTotal : Prop :=
  ∀ (s : State) (cmd : CmdWord) (rest : List HostStep), s.Inv → s.faulted = false → s.seeded = true →
    cmd = 0x00000002 ∨ cmd = 0x00000003 → s.inbox = .command cmd [] :: rest →
    ∃ t data, step s = .next t ∧ t.responses = s.responses ++ [⟨0x00, data⟩]

/-- R21, R96: lane j's word and lane j's next state depend on lane j's four words alone: two seeded blocks of one build
that agree on lane j agree on both after either draw, whatever their other lanes hold. -/
def Obligations.LanesAreIndependent : Prop :=
  ∀ (s s' : State) (k : DrawKind) (j : Nat), s.Inv → s'.Inv → s.seeded = true → s'.seeded = true →
    s.cfg = s'.cfg → j < s.cfg.n → s.lane j = s'.lane j →
    ∃ t t' data data', exec (drawInstr k) s = .next t ∧ exec (drawInstr k) s' = .next t' ∧
      t.responses = s.responses ++ [⟨0x00, data⟩] ∧ t'.responses = s'.responses ++ [⟨0x00, data'⟩] ∧
      responseWord data j = responseWord data' j ∧ t.lane j = t'.lane j

/-- R95, R154: two lanes of one block with equal states give equal words and equal next states. -/
def Obligations.EqualLanesStayEqual : Prop :=
  ∀ (s : State) (k : DrawKind) (i j : Nat), s.Inv → s.seeded = true → i < s.cfg.n → j < s.cfg.n →
    s.lane i = s.lane j →
    ∃ t data, exec (drawInstr k) s = .next t ∧ t.responses = s.responses ++ [⟨0x00, data⟩] ∧
      responseWord data i = responseWord data j ∧ t.lane i = t.lane j

/-- R82, R98, R114: a lane whose four words are 0 returns 0 on either draw and stays all-zero. -/
def Obligations.AllZeroLaneStaysZero : Prop :=
  ∀ (s : State) (k : DrawKind) (j : Nat), s.Inv → s.seeded = true → s.lane j = some ⟨0, 0, 0, 0⟩ →
    ∃ t data, exec (drawInstr k) s = .next t ∧ t.responses = s.responses ++ [⟨0x00, data⟩] ∧
      responseWord data j = 0 ∧ t.lane j = some ⟨0, 0, 0, 0⟩

/-- From R83, R90 to R92, R95, R96, R100 and R114 (R99 states it and marks it as derived): after a SEED on any
unfaulted block, over any sequence of draws in any mix, the k-th response holds in lane j the k-th word of the scalar
generator of the same variant started at lane j's sub-seed (converted where the k-th draw is NEXT.F64), and after n
draws lane j holds Advance^n of the sub-seed state. -/
def Obligations.LanesAreScalarStreams : Prop :=
  ∀ (s : State) (payload : List Byte) (ks : List DrawKind) (rest : List HostStep), s.faulted = false →
    payload.length = 32 * s.cfg.n →
    s.inbox = commandStep (.seed 0 payload) :: (ks.map fun k => commandStep (drawInstr k)) ++ rest →
    ∃ (t : State) (rs : List Response), Sys2Proof.core.run (ks.length + 1) s = .next t ∧ t.inbox = rest ∧
      t.responses = s.responses ++ ⟨0x00, []⟩ :: rs ∧ rs.length = ks.length ∧
      ∀ j < s.cfg.n, ∃ l, l = laneOfSubSeed (subSeedIn s.cfg.n payload j) ∧
        t.lane j = some (advanceN ks.length l) ∧
        ∀ (k : Nat) (r : Response) (d : DrawKind), rs[k]? = some r → ks[k]? = some d →
          r.code = 0x00 ∧ responseWord r.data j = drawConvert d (scalarWord s.cfg.variant l k)

/-! ### The conversion -/

/-- R110, in the binary64 layout of log entry 15: U2D(x) is the binary64 encoding of (x >> 11) · 2^−53, exactly: it
denotes that number and its sign bit is 0. -/
def Obligations.ConversionIsExact : Prop :=
  ∀ x : Word, f64Value (u2d x) = some (((x.toNat / 2 ^ 11 : Nat) : Rat) / 2 ^ 53) ∧ f64Sign (u2d x) = false

/-- R111, which the spec marks as derived from R110, in the layout of log entry 15: the bit pattern of U2D: +0.0 for k
= 0, else sign 0, biased exponent p + 970 with p at most 52 the position of k's leading 1, and fraction the bits below
it, left-justified. -/
def Obligations.ConversionBitPattern : Prop :=
  ∀ (x : Word) (k : Nat), k = x.toNat / 2 ^ 11 →
    (k = 0 → u2d x = 0x0000000000000000) ∧
    (∀ p, 2 ^ p ≤ k → k < 2 ^ (p + 1) → p ≤ 52 ∧ f64Sign (u2d x) = false ∧
      f64Exponent (u2d x) = p + 970 ∧ f64Fraction (u2d x) = (k - 2 ^ p) * 2 ^ (52 - p))

/-- R112, which the spec marks as derived, in the layout of log entry 15: the corner values of U2D, every result in
[0, 1) and never negative, −0.0, subnormal, infinite or NaN, and two words give one result exactly when they differ in
the low 11 bits alone. -/
def Obligations.ConversionRange : Prop :=
  (∀ x : Word, x.toNat < 2 ^ 11 → u2d x = 0) ∧
  (∀ x : Word, 2 ^ 11 ≤ x.toNat → x.toNat < 2 ^ 12 → u2d x = 0x3CA0000000000000) ∧
  (∀ x : Word, 2 ^ 64 - 2 ^ 11 ≤ x.toNat → u2d x = 0x3FEFFFFFFFFFFFFF) ∧
  (∀ x : Word, 2 ^ 11 ≤ x.toNat →
    (0x3CA0000000000000 : Word) ≤ u2d x ∧ u2d x ≤ (0x3FEFFFFFFFFFFFFF : Word)) ∧
  (∀ x : Word, ∃ q, f64Value (u2d x) = some q ∧ q * 2 ^ 53 = (x.toNat / 2 ^ 11 : Nat) ∧ 0 ≤ q ∧ q < 1) ∧
  (∀ x : Word, f64Sign (u2d x) = false ∧
    (u2d x = 0 ∨ (0 < f64Exponent (u2d x) ∧ f64Exponent (u2d x) < 2047))) ∧
  (∀ x y : Word, u2d x = u2d y ↔ x.toNat / 2 ^ 11 = y.toNat / 2 ^ 11)

/-- R7, R113: the backend changes no state and no response but STATUS bit 10. In a build of another backend every host
step but the exact STATUS word, the malformed words and the words of no command among them, does the same with the same
response; the exact word does the same and answers that build's STATUS word, and the two words differ in bit 10 alone,
the BACKEND field. -/
def Obligations.BackendShowsOnlyInStatus : Prop :=
  (∀ (i : Instr) (s t : State) (b : Backend), i.mnemonic ≠ "STATUS" → exec i s = .next t →
    exec i (s.withBackend b) = .next (t.withBackend b)) ∧
  (∀ (s t : State) (b : Backend), (∀ rest, s.inbox ≠ .command 0x00000004 [] :: rest) → step s = .next t →
    step (s.withBackend b) = .next (t.withBackend b)) ∧
  (∀ (s : State) (b : Backend) (k : Nat), k ≠ 10 →
    (s.withBackend b).statusWord.getLsbD k = s.statusWord.getLsbD k) ∧
  (∀ (s : State) (b : Backend), (s.withBackend b).statusWord.getLsbD 10 = decide (b = .hwSpecific)) ∧
  (∀ (s t : State) (b : Backend) (rsv : BitVec 8) (payload : List Byte), exec (.status rsv payload) s = .next t →
    ∃ (t' : State) (r r' : Response), exec (.status rsv payload) (s.withBackend b) = .next t' ∧
      t.responses = s.responses ++ [r] ∧ t'.responses = s.responses ++ [r'] ∧ r'.code = r.code ∧
      { t' with responses := t.responses } = t.withBackend b ∧
      if rsv = 0 ∧ payload = [] then
        r.data = le32bytes s.statusWord ∧ r'.data = le32bytes (s.withBackend b).statusWord
      else r' = r)

/-! ### STATUS -/

/-- R28: STATUS answers 0x00 and the STATUS word's 4 bytes, least significant first, seeded or not and faulted or not,
and changes nothing else; the word's fields are SEEDED, FAULTED, FAULT_CODE, LANES, VARIANT, BACKEND and IFVER at their
places, its reserved fields 0; after reset it is 0x01000000 with the configuration's bits. -/
def Obligations.StatusAnswersItsWord : Prop :=
  (∀ s : State, ∃ (data : List Byte) (w : BitVec 32),
    exec (.status 0 []) s = .next { s with responses := s.responses ++ [⟨0x00, data⟩] } ∧
    data.length = 4 ∧ (∑ m ∈ Finset.range 4, (data.getD m 0).toNat * 2 ^ (8 * m)) = w.toNat ∧
    w.getLsbD 0 = s.seeded ∧ w.getLsbD 1 = s.faulted ∧ w.extractLsb' 2 2 = 0 ∧
    w.extractLsb' 4 4 = s.faultCode ∧ w.getLsbD 8 = decide (s.cfg.n = 8) ∧
    w.getLsbD 9 = decide (s.cfg.variant = .plusPlus) ∧ w.getLsbD 10 = decide (s.cfg.backend = .hwSpecific) ∧
    w.extractLsb' 11 13 = 0 ∧ w.extractLsb' 24 8 = 0x01) ∧
  (∀ c : Config, (State.resetOf c).statusWord.toNat = 0x01000000 + (if c.n = 8 then 0x100 else 0) +
    (if c.variant = .plusPlus then 0x200 else 0) + (if c.backend = .hwSpecific then 0x400 else 0))

/-- R120: the whole of STATUS's rule: its word; on a faulted block every other form of it is rejected; RSV and LEN; else
the STATUS word, which does not depend on S0..S3, is answered and nothing else changes. -/
def Obligations.StatusFollowsItsRule : Prop :=
  encodeCommand (.status 0 []) = 0x00000004 ∧
  ∀ (s : State) (rsv : BitVec 8) (payload : List Byte),
    (if s.faulted = true ∧ (rsv ≠ 0 ∨ payload.length ≠ 0) then
      exec (.status rsv payload) s = .next { s with responses := s.responses ++ [⟨0x0F, []⟩] }
    else if rsv ≠ 0 ∨ payload.length ≠ 0 then ∃ t, exec (.status rsv payload) s = .next t ∧ s.FaultEntered t 4
    else exec (.status rsv payload) s =
      .next { s with responses := s.responses ++ [⟨0x00, le32bytes s.statusWord⟩] }) ∧
    ∀ a b c d, { s with s0 := a, s1 := b, s2 := c, s3 := d }.statusWord = s.statusWord

/-- R122: STATUS writes no state: any number of them gives that many equal responses and leaves the block as it was,
faulted or not. -/
def Obligations.StatusHasNoSideEffect : Prop :=
  ∀ (s : State) (n : Nat) (rest : List HostStep),
    ∃ r : Response, Sys2Proof.core.run n (s.setInbox (List.replicate n (commandStep (.status 0 [])) ++ rest)) =
      .next { s with inbox := rest, responses := s.responses ++ List.replicate n r }

/-! ### The whole machine -/

/-- R23, R83, R90 to R92, R94 to R96, R100, R114, R122 (R99 states what follows from it): every step keeps a lane's place
in its scalar stream. Where lane j stands at the k-th state from l, an idle step and STATUS leave it there; a draw answers
the k-th word of the scalar generator from l, converted for NEXT.F64, and moves it to the next state; a SEED puts it at
the start of the stream of its sub-seed; a fault or a reset ends the stream. -/
def Obligations.StepKeepsLanesInTheirStreams : Prop :=
  ∀ (s t : State) (j k : Nat) (l : Lane), s.Inv → s.lane j = some (advanceN k l) → step s = .next t →
    match s.inbox with
    | [] => t.lane j = some (advanceN k l)
    | .reset :: _ => t.lane j = none
    | .resetDuring _ _ :: _ => t.lane j = none
    | .command cmd payload :: _ =>
      let opc := cmd.toNat % 2 ^ 8
      ∃ r, t.responses = s.responses ++ [r] ∧
        if r.code ≠ 0x00 then t.lane j = none
        else if opc = 1 then t.lane j = some (laneOfSubSeed (subSeedIn s.cfg.n payload j))
        else if opc = 2 then
          t.lane j = some (advanceN (k + 1) l) ∧ responseWord r.data j = scalarWord s.cfg.variant l k
        else if opc = 3 then
          t.lane j = some (advanceN (k + 1) l) ∧ responseWord r.data j = u2d (scalarWord s.cfg.variant l k)
        else opc = 4 ∧ t.lane j = some (advanceN k l)

/-- R23, R26, R130, R136: every step keeps the invariant: S0..S3 hold P_N lanes each exactly while SEEDED = 1, a faulted
block is not seeded, and FAULT_CODE is 0 exactly while FAULTED = 0 and never above 4. -/
def Obligations.StepKeepsTheInvariant : Prop :=
  ∀ s t : State, s.Inv → step s = .next t → t.Inv

/-- R43, R54, R158: from a state that meets the invariant a host step is answered or has no move for its payload's
length; it never stops in a fault of the model, and a run of any length stops only so. -/
def Obligations.NoRunStopsInAFault : Prop :=
  ∀ (s : State) (n : Nat), s.Inv →
    (∃ t : State, Sys2Proof.core.run n s = .next t ∧ t.Inv) ∨ Sys2Proof.core.run n s = .refused .payloadLength

/-- R48: the response of every transaction has one of the codes 0x00, 0x01 to 0x04 and 0x0F; with 0x00 the data is
empty for SEED, 8·P_N bytes for a draw and 4 bytes for STATUS, and with any other code it is empty. A code 0x01 to 0x04
is returned by the command that raised that fault, 0x0F by a block already faulted, which did nothing. -/
def Obligations.ResponseCodesAndLengths : Prop :=
  ∀ (s : State) (cmd : CmdWord) (payload : List Byte) (rest : List HostStep), s.Inv →
    s.inbox = .command cmd payload :: rest → payload.length = cmdLen cmd →
    ∃ t r, step s = .next t ∧ t.responses = s.responses ++ [r] ∧ r.code ∈ legalCodes ∧
      (r.code ≠ 0x00 → r.data = []) ∧
      (r.code = 0x00 →
        (cmd.toNat % 2 ^ 8 = 1 ∧ r.data.length = 0) ∨
        ((cmd.toNat % 2 ^ 8 = 2 ∨ cmd.toNat % 2 ^ 8 = 3) ∧ r.data.length = 8 * s.cfg.n) ∨
        (cmd.toNat % 2 ^ 8 = 4 ∧ r.data.length = 4)) ∧
      (r.code ≠ 0x00 → r.code ≠ 0x0F →
        s.faulted = false ∧ t.faulted = true ∧ r.code = t.faultCode.setWidth 8) ∧
      (r.code = 0x0F →
        s.faulted = true ∧ t = { s with inbox := rest, responses := s.responses ++ [⟨0x0F, []⟩] })

/-- R13, R20, R24, R150: what every command leaves unchanged, in any state: the configuration, the host's steps and the
responses already given, to which it adds one; when it completes, the fault fields, and unless it is SEED, SEEDED; when
STATUS answers 0x00 or a command is rejected, S0..S3 and SEEDED as well. -/
def Obligations.CommandFrame : Prop :=
  ∀ (i : Instr) (s t : State), exec i s = .next t →
    t.cfg = s.cfg ∧ t.inbox = s.inbox ∧ ∃ r, t.responses = s.responses ++ [r] ∧
      (r.code = 0x00 → t.faulted = s.faulted ∧ t.faultCode = s.faultCode) ∧
      (r.code = 0x00 → i.mnemonic ≠ "SEED" → t.seeded = s.seeded) ∧
      ((r.code = 0x00 ∧ i.mnemonic = "STATUS") ∨ r.code = 0x0F →
        t = { s with responses := s.responses ++ [r] })

/-- R5, R6, R7: no run of any length changes the configuration. -/
def Obligations.ConfigurationIsConstant : Prop :=
  ∀ (s t : State) (n : Nat), Sys2Proof.core.run n s = .next t → t.cfg = s.cfg

/-! ### The assembler -/

/-- R65: what the assembler makes of a statement is a transaction the port can express, and for every statement but
.raw it is a legal command of the build (R62). -/
def Obligations.AssembledStatementsAreLegal : Prop :=
  ∀ (c : Config) (a : Asm) (cmd : CmdWord) (payload : List Byte), assemble c a = .ok (cmd, payload) →
    payload.length = cmdLen cmd ∧
    ((∀ w bs, a ≠ .raw w bs) → ∃ i, decodeCommand cmd payload = .ok i ∧ i.legal c = true ∧
      i.wellFormed = true)

/-- R66, R45: SEED.LANES gives tuple j to lane j: P_N tuples of four 64-bit words assemble to the SEED word with a
payload whose lane j of register Sk is element k of tuple j; any other number of tuples, and a tuple of other than four
words, are refused. -/
def Obligations.SeedLanesTransposes : Prop :=
  ∀ (c : Config) (ts : List (List Nat)),
    (ts.length ≠ c.n → assemble c (.seedLanes ts) = .error .tupleCount) ∧
    (ts.length = c.n → (∃ t ∈ ts, t.length ≠ 4) → assemble c (.seedLanes ts) = .error .tupleSize) ∧
    (ts.length = c.n → (∀ t ∈ ts, t.length = 4 ∧ ∀ w ∈ t, w < 2 ^ 64) →
      ∃ payload, assemble c (.seedLanes ts) = .ok (encodeCommand (.seed 0 payload), payload) ∧
        payload.length = 32 * c.n ∧
        ∀ (j k : Nat) (t : List Nat) (w : Nat), ts[j]? = some t → t[k]? = some w →
          (seedWord c.n payload k j).toNat = w)

/-- R68, R69: NEXT.WIDE.I is NEXT.U64 and NEXT.WIDE.F is NEXT.F64, for either backend. -/
def Obligations.WideDrawsAreAliases : Prop :=
  ∀ c : Config,
    assemble c .nextWideI = assemble c .nextU64 ∧ assemble c .nextWideI = .ok (0x00000002, []) ∧
    assemble c .nextWideF = assemble c .nextF64 ∧ assemble c .nextWideF = .ok (0x00000003, [])
end

