-- ==== Sys2Proof/Laws/Bytes.lean ====
section
/-! SUPPORT. Laws of the byte-order primitives. -/

namespace Sys2Proof.Machine

@[simp] theorem length_leBytes (k v : Nat) : (leBytes k v).length = k := by
  induction k generalizing v with
  | zero => rfl
  | succ k ih => simp [leBytes, ih]

@[simp] theorem length_le64bytes (w : Word) : (le64bytes w).length = 8 := length_leBytes 8 _

@[simp] theorem length_le32bytes (w : BitVec 32) : (le32bytes w).length = 4 := length_leBytes 4 _

/-- Reading back the bytes of a number gives its residue. -/
theorem leNat_leBytes (k v : Nat) : leNat (leBytes k v) = v % 2 ^ (8 * k) := by
  induction k generalizing v with
  | zero => simp [leBytes, leNat, Nat.mod_one]
  | succ k ih =>
    have h : 2 ^ (8 * (k + 1)) = 2 ^ 8 * 2 ^ (8 * k) := by rw [← Nat.pow_add]; congr 1; omega
    simp only [leBytes, leNat, ih, BitVec.toNat_ofNat]
    rw [h, Nat.mod_mul]

/-- A byte list stands for a number below 2^(8·length). -/
theorem leNat_lt (bs : List Byte) : leNat bs < 2 ^ (8 * bs.length) := by
  induction bs with
  | nil => simp [leNat]
  | cons b bs ih =>
    have h : 2 ^ (8 * (bs.length + 1)) = 2 ^ 8 * 2 ^ (8 * bs.length) := by
      rw [← Nat.pow_add]; congr 1; omega
    have hb := b.isLt
    simp only [leNat, List.length_cons, h]
    nlinarith

/-- Writing out what a byte list stands for gives the list back. -/
theorem leBytes_leNat (bs : List Byte) : leBytes bs.length (leNat bs) = bs := by
  induction bs with
  | nil => rfl
  | cons b bs ih =>
    have hb := b.isLt
    have hd : (b.toNat + 2 ^ 8 * leNat bs) / 2 ^ 8 = leNat bs := by omega
    have hm : BitVec.ofNat 8 (b.toNat + 2 ^ 8 * leNat bs) = b := by
      apply BitVec.eq_of_toNat_eq
      simp only [BitVec.toNat_ofNat]
      omega
    simp only [leBytes, leNat, List.length_cons, hd, hm, ih]

@[simp] theorem le64_le64bytes (w : Word) : le64 (le64bytes w) = w := by
  apply BitVec.eq_of_toNat_eq
  have := w.isLt
  simp only [le64, le64bytes, leNat_leBytes, BitVec.toNat_ofNat]
  omega

theorem le64bytes_le64 (bs : List Byte) (h : bs.length = 8) : le64bytes (le64 bs) = bs := by
  have hl := leNat_lt bs
  rw [h] at hl
  have hn : (le64 bs).toNat = leNat bs := by
    simp only [le64, BitVec.toNat_ofNat]
    exact Nat.mod_eq_of_lt hl
  rw [le64bytes, hn, ← h, leBytes_leNat]

@[simp] theorem le32_le32bytes (w : BitVec 32) : le32 (le32bytes w) = w := by
  apply BitVec.eq_of_toNat_eq
  have := w.isLt
  simp only [le32, le32bytes, leNat_leBytes, BitVec.toNat_ofNat]
  omega

theorem le32bytes_le32 (bs : List Byte) (h : bs.length = 4) : le32bytes (le32 bs) = bs := by
  have hl := leNat_lt bs
  rw [h] at hl
  have hn : (le32 bs).toNat = leNat bs := by
    simp only [le32, BitVec.toNat_ofNat]
    exact Nat.mod_eq_of_lt hl
  rw [le32bytes, hn, ← h, leBytes_leNat]

/-- The number a byte list stands for is the sum R12 writes. -/
theorem leNat_eq_sum (bs : List Byte) :
    leNat bs = ∑ m ∈ Finset.range bs.length, (bs.getD m 0).toNat * 2 ^ (8 * m) := by
  induction bs with
  | nil => rfl
  | cons b bs ih =>
    rw [List.length_cons, Finset.sum_range_succ', leNat, ih, Finset.mul_sum, add_comm]
    simp only [List.getD_cons_zero, List.getD_cons_succ, Nat.mul_zero, Nat.pow_zero, Nat.mul_one,
      Nat.add_right_cancel_iff]
    apply Finset.sum_congr rfl
    intro m _
    ring

theorem length_slice (p : List Byte) (i n : Nat) (h : i + n ≤ p.length) : (slice p i n).length = n := by
  simp only [slice, List.length_take, List.length_drop]
  omega

@[simp] theorem length_vectorBytes (ws : List Word) : (vectorBytes ws).length = 8 * ws.length := by
  induction ws with
  | nil => rfl
  | cons w ws ih =>
    simp only [vectorBytes, List.flatMap_cons, List.length_append, length_le64bytes, List.length_cons] at ih ⊢
    omega

/-- Bytes 8j .. 8j+7 of a vector are its word j. -/
theorem slice_vectorBytes (ws : List Word) (j : Nat) (h : j < ws.length) :
    slice (vectorBytes ws) (8 * j) 8 = le64bytes ws[j] := by
  induction ws generalizing j with
  | nil => simp at h
  | cons w ws ih =>
    cases j with
    | zero =>
      simp only [slice, vectorBytes, List.flatMap_cons, Nat.mul_zero, List.drop_zero, List.getElem_cons_zero]
      rw [List.take_append_of_le_length (by simp), List.take_of_length_le (by simp)]
    | succ j =>
      have ih' := ih j (by simpa using h)
      simp only [slice, vectorBytes, List.flatMap_cons, List.getElem_cons_succ] at ih' ⊢
      rw [List.drop_append, List.drop_of_length_le (by simp), List.nil_append, length_le64bytes,
        show 8 * (j + 1) - 8 = 8 * j by omega, ih']

/-- Word j of a vector, read back from its bytes. -/
theorem le64_slice_vectorBytes (ws : List Word) (j : Nat) (h : j < ws.length) :
    le64 (slice (vectorBytes ws) (8 * j) 8) = ws[j] := by
  rw [slice_vectorBytes ws j h, le64_le64bytes]

end Sys2Proof.Machine
end

