-- ==== Sys2Proof/Laws/Decode.lean ====
section
/-! SUPPORT. Laws of the command word's fields and of the decoder. -/

namespace Sys2Proof

@[simp] theorem cmdOpc_packCommand (opc rsv : BitVec 8) (len : BitVec 16) :
    cmdOpc (packCommand opc rsv len) = opc := by
  ext i hi
  simp only [cmdOpc, packCommand, BitVec.getElem_extractLsb', BitVec.getLsbD_append, Nat.zero_add]
  simp [hi]

@[simp] theorem cmdRsv_packCommand (opc rsv : BitVec 8) (len : BitVec 16) :
    cmdRsv (packCommand opc rsv len) = rsv := by
  ext i hi
  simp only [cmdRsv, packCommand, BitVec.getElem_extractLsb', BitVec.getLsbD_append]
  simp [hi]

@[simp] theorem cmdLen_packCommand (opc rsv : BitVec 8) (len : BitVec 16) :
    cmdLen (packCommand opc rsv len) = len.toNat := by
  have h : (packCommand opc rsv len).extractLsb' 16 16 = len := by
    ext i hi
    simp only [packCommand, BitVec.getElem_extractLsb', BitVec.getLsbD_append]
    have h1 : ¬ 16 + i < 8 := by omega
    have h2 : ¬ 16 + i - 8 < 8 := by omega
    have h3 : 16 + i - 8 - 8 = i := by omega
    simp [h1, h2, h3, hi]
  rw [cmdLen, h]

/-- The OPC field is the word's low byte. -/
theorem cmdOpc_toNat (cmd : CmdWord) : (cmdOpc cmd).toNat = cmd.toNat % 2 ^ 8 := by
  simp [cmdOpc]

/-- The RSV field is the word's second byte. -/
theorem cmdRsv_toNat (cmd : CmdWord) : (cmdRsv cmd).toNat = cmd.toNat / 2 ^ 8 % 2 ^ 8 := by
  simp [cmdRsv, Nat.shiftRight_eq_div_pow]

/-- The LEN field is the word's upper half. -/
theorem cmdLen_eq (cmd : CmdWord) : cmdLen cmd = cmd.toNat / 2 ^ 16 := by
  have := cmd.isLt
  simp only [cmdLen, BitVec.extractLsb'_toNat, Nat.shiftRight_eq_div_pow]
  omega

theorem cmdLen_lt (cmd : CmdWord) : cmdLen cmd < 2 ^ 16 := (cmd.extractLsb' 16 16).isLt

/-- A command word is its three fields. -/
theorem packCommand_fields (cmd : CmdWord) :
    packCommand (cmdOpc cmd) (cmdRsv cmd) (BitVec.ofNat 16 (cmdLen cmd)) = cmd := by
  have h : BitVec.ofNat 16 (cmdLen cmd) = cmd.extractLsb' 16 16 := by
    rw [cmdLen, BitVec.ofNat_toNat, BitVec.setWidth_eq]
  rw [h]
  apply BitVec.eq_of_getLsbD_eq
  intro i hi
  simp only [packCommand, cmdOpc, cmdRsv, BitVec.getLsbD_append, BitVec.getLsbD_extractLsb']
  by_cases h1 : i < 8
  · simp [h1]
  · by_cases h2 : i - 8 < 8
    · simp [h1, h2, show 8 + (i - 8) = i by omega]
    · simp [h1, h2, show i - 8 - 8 < 16 by omega, show 16 + (i - 8 - 8) = i by omega]

/-- The command of an opcode carries the fields it was made from. -/
theorem opcodeInstr_some {opc rsv : BitVec 8} {payload : List Byte} {i : Instr}
    (h : opcodeInstr opc rsv payload = some i) :
    opcodeOf i = opc ∧ i.rsv = rsv ∧ i.payload = payload := by
  unfold opcodeInstr at h
  split at h <;> first
    | (rename_i hn; cases h; exact ⟨BitVec.eq_of_toNat_eq hn.symm, rfl, rfl⟩)
    | cases h

/-- Every command is the one its own opcode names. -/
theorem opcodeInstr_opcodeOf (i : Instr) : opcodeInstr (opcodeOf i) i.rsv i.payload = some i := by
  cases i <;> rfl

/-- Everything a successful decoding says. -/
theorem decodeCommand_ok {cmd : CmdWord} {payload : List Byte} {i : Instr}
    (h : decodeCommand cmd payload = .ok i) :
    payload.length = cmdLen cmd ∧ opcodeOf i = cmdOpc cmd ∧ i.rsv = cmdRsv cmd ∧ i.payload = payload := by
  unfold decodeCommand at h
  split at h
  · cases h
  · rename_i hl
    split at h
    · rename_i hi
      cases h
      exact ⟨by simpa using hl, opcodeInstr_some hi⟩
    · cases h

end Sys2Proof
end

