-- ==== Sys2Proof/Laws/State.lean ====
section
/-! SUPPORT. One lemma per field of State per named update, so that no later proof unfolds a record update. -/

namespace Sys2Proof.Machine

@[simp] theorem State.respond_cfg (s : State) (code : BitVec 8) (data : List Byte) :
    (s.respond code data).cfg = s.cfg := rfl
@[simp] theorem State.respond_s0 (s : State) (code : BitVec 8) (data : List Byte) :
    (s.respond code data).s0 = s.s0 := rfl
@[simp] theorem State.respond_s1 (s : State) (code : BitVec 8) (data : List Byte) :
    (s.respond code data).s1 = s.s1 := rfl
@[simp] theorem State.respond_s2 (s : State) (code : BitVec 8) (data : List Byte) :
    (s.respond code data).s2 = s.s2 := rfl
@[simp] theorem State.respond_s3 (s : State) (code : BitVec 8) (data : List Byte) :
    (s.respond code data).s3 = s.s3 := rfl
@[simp] theorem State.respond_seeded (s : State) (code : BitVec 8) (data : List Byte) :
    (s.respond code data).seeded = s.seeded := rfl
@[simp] theorem State.respond_faulted (s : State) (code : BitVec 8) (data : List Byte) :
    (s.respond code data).faulted = s.faulted := rfl
@[simp] theorem State.respond_faultCode (s : State) (code : BitVec 8) (data : List Byte) :
    (s.respond code data).faultCode = s.faultCode := rfl
@[simp] theorem State.respond_inbox (s : State) (code : BitVec 8) (data : List Byte) :
    (s.respond code data).inbox = s.inbox := rfl
@[simp] theorem State.respond_responses (s : State) (code : BitVec 8) (data : List Byte) :
    (s.respond code data).responses = s.responses ++ [⟨code, data⟩] := rfl

@[simp] theorem State.dropLanes_cfg (s : State) :
    (s.dropLanes).cfg = s.cfg := rfl
@[simp] theorem State.dropLanes_s0 (s : State) :
    (s.dropLanes).s0 = none := rfl
@[simp] theorem State.dropLanes_s1 (s : State) :
    (s.dropLanes).s1 = none := rfl
@[simp] theorem State.dropLanes_s2 (s : State) :
    (s.dropLanes).s2 = none := rfl
@[simp] theorem State.dropLanes_s3 (s : State) :
    (s.dropLanes).s3 = none := rfl
@[simp] theorem State.dropLanes_seeded (s : State) :
    (s.dropLanes).seeded = s.seeded := rfl
@[simp] theorem State.dropLanes_faulted (s : State) :
    (s.dropLanes).faulted = s.faulted := rfl
@[simp] theorem State.dropLanes_faultCode (s : State) :
    (s.dropLanes).faultCode = s.faultCode := rfl
@[simp] theorem State.dropLanes_inbox (s : State) :
    (s.dropLanes).inbox = s.inbox := rfl
@[simp] theorem State.dropLanes_responses (s : State) :
    (s.dropLanes).responses = s.responses := rfl

@[simp] theorem State.raise_cfg (s : State) (c : FaultCause) :
    (s.raise c).cfg = s.cfg := rfl
@[simp] theorem State.raise_s0 (s : State) (c : FaultCause) :
    (s.raise c).s0 = none := rfl
@[simp] theorem State.raise_s1 (s : State) (c : FaultCause) :
    (s.raise c).s1 = none := rfl
@[simp] theorem State.raise_s2 (s : State) (c : FaultCause) :
    (s.raise c).s2 = none := rfl
@[simp] theorem State.raise_s3 (s : State) (c : FaultCause) :
    (s.raise c).s3 = none := rfl
@[simp] theorem State.raise_seeded (s : State) (c : FaultCause) :
    (s.raise c).seeded = false := rfl
@[simp] theorem State.raise_faulted (s : State) (c : FaultCause) :
    (s.raise c).faulted = true := rfl
@[simp] theorem State.raise_faultCode (s : State) (c : FaultCause) :
    (s.raise c).faultCode = faultCodeOf c := rfl
@[simp] theorem State.raise_inbox (s : State) (c : FaultCause) :
    (s.raise c).inbox = s.inbox := rfl
@[simp] theorem State.raise_responses (s : State) (c : FaultCause) :
    (s.raise c).responses = s.responses ++ [⟨codeOfFault c, []⟩] := rfl

@[simp] theorem State.reject_cfg (s : State) :
    (s.reject).cfg = s.cfg := rfl
@[simp] theorem State.reject_s0 (s : State) :
    (s.reject).s0 = s.s0 := rfl
@[simp] theorem State.reject_s1 (s : State) :
    (s.reject).s1 = s.s1 := rfl
@[simp] theorem State.reject_s2 (s : State) :
    (s.reject).s2 = s.s2 := rfl
@[simp] theorem State.reject_s3 (s : State) :
    (s.reject).s3 = s.s3 := rfl
@[simp] theorem State.reject_seeded (s : State) :
    (s.reject).seeded = s.seeded := rfl
@[simp] theorem State.reject_faulted (s : State) :
    (s.reject).faulted = s.faulted := rfl
@[simp] theorem State.reject_faultCode (s : State) :
    (s.reject).faultCode = s.faultCode := rfl
@[simp] theorem State.reject_inbox (s : State) :
    (s.reject).inbox = s.inbox := rfl
@[simp] theorem State.reject_responses (s : State) :
    (s.reject).responses = s.responses ++ [⟨codeRejected, []⟩] := rfl

@[simp] theorem State.resetBlock_cfg (s : State) :
    (s.resetBlock).cfg = s.cfg := rfl
@[simp] theorem State.resetBlock_s0 (s : State) :
    (s.resetBlock).s0 = none := rfl
@[simp] theorem State.resetBlock_s1 (s : State) :
    (s.resetBlock).s1 = none := rfl
@[simp] theorem State.resetBlock_s2 (s : State) :
    (s.resetBlock).s2 = none := rfl
@[simp] theorem State.resetBlock_s3 (s : State) :
    (s.resetBlock).s3 = none := rfl
@[simp] theorem State.resetBlock_seeded (s : State) :
    (s.resetBlock).seeded = false := rfl
@[simp] theorem State.resetBlock_faulted (s : State) :
    (s.resetBlock).faulted = false := rfl
@[simp] theorem State.resetBlock_faultCode (s : State) :
    (s.resetBlock).faultCode = 0 := rfl
@[simp] theorem State.resetBlock_inbox (s : State) :
    (s.resetBlock).inbox = s.inbox := rfl
@[simp] theorem State.resetBlock_responses (s : State) :
    (s.resetBlock).responses = s.responses := rfl

@[simp] theorem State.setLanes_cfg (s : State) (ls : List Lane) :
    (s.setLanes ls).cfg = s.cfg := rfl
@[simp] theorem State.setLanes_s0 (s : State) (ls : List Lane) :
    (s.setLanes ls).s0 = some (ls.map Lane.s0) := rfl
@[simp] theorem State.setLanes_s1 (s : State) (ls : List Lane) :
    (s.setLanes ls).s1 = some (ls.map Lane.s1) := rfl
@[simp] theorem State.setLanes_s2 (s : State) (ls : List Lane) :
    (s.setLanes ls).s2 = some (ls.map Lane.s2) := rfl
@[simp] theorem State.setLanes_s3 (s : State) (ls : List Lane) :
    (s.setLanes ls).s3 = some (ls.map Lane.s3) := rfl
@[simp] theorem State.setLanes_seeded (s : State) (ls : List Lane) :
    (s.setLanes ls).seeded = s.seeded := rfl
@[simp] theorem State.setLanes_faulted (s : State) (ls : List Lane) :
    (s.setLanes ls).faulted = s.faulted := rfl
@[simp] theorem State.setLanes_faultCode (s : State) (ls : List Lane) :
    (s.setLanes ls).faultCode = s.faultCode := rfl
@[simp] theorem State.setLanes_inbox (s : State) (ls : List Lane) :
    (s.setLanes ls).inbox = s.inbox := rfl
@[simp] theorem State.setLanes_responses (s : State) (ls : List Lane) :
    (s.setLanes ls).responses = s.responses := rfl

@[simp] theorem State.loadSeed_cfg (s : State) (payload : List Byte) :
    (s.loadSeed payload).cfg = s.cfg := rfl
@[simp] theorem State.loadSeed_s0 (s : State) (payload : List Byte) :
    (s.loadSeed payload).s0 = some (seedReg s.cfg.n payload 0) := rfl
@[simp] theorem State.loadSeed_s1 (s : State) (payload : List Byte) :
    (s.loadSeed payload).s1 = some (seedReg s.cfg.n payload 1) := rfl
@[simp] theorem State.loadSeed_s2 (s : State) (payload : List Byte) :
    (s.loadSeed payload).s2 = some (seedReg s.cfg.n payload 2) := rfl
@[simp] theorem State.loadSeed_s3 (s : State) (payload : List Byte) :
    (s.loadSeed payload).s3 = some (seedReg s.cfg.n payload 3) := rfl
@[simp] theorem State.loadSeed_seeded (s : State) (payload : List Byte) :
    (s.loadSeed payload).seeded = true := rfl
@[simp] theorem State.loadSeed_faulted (s : State) (payload : List Byte) :
    (s.loadSeed payload).faulted = s.faulted := rfl
@[simp] theorem State.loadSeed_faultCode (s : State) (payload : List Byte) :
    (s.loadSeed payload).faultCode = s.faultCode := rfl
@[simp] theorem State.loadSeed_inbox (s : State) (payload : List Byte) :
    (s.loadSeed payload).inbox = s.inbox := rfl
@[simp] theorem State.loadSeed_responses (s : State) (payload : List Byte) :
    (s.loadSeed payload).responses = s.responses := rfl

@[simp] theorem State.drawLanes_cfg (s : State) (convert : Word → Word) (ls : List Lane) :
    (s.drawLanes convert ls).cfg = s.cfg := rfl
@[simp] theorem State.drawLanes_s0 (s : State) (convert : Word → Word) (ls : List Lane) :
    (s.drawLanes convert ls).s0 = some ((ls.map advance).map Lane.s0) := rfl
@[simp] theorem State.drawLanes_s1 (s : State) (convert : Word → Word) (ls : List Lane) :
    (s.drawLanes convert ls).s1 = some ((ls.map advance).map Lane.s1) := rfl
@[simp] theorem State.drawLanes_s2 (s : State) (convert : Word → Word) (ls : List Lane) :
    (s.drawLanes convert ls).s2 = some ((ls.map advance).map Lane.s2) := rfl
@[simp] theorem State.drawLanes_s3 (s : State) (convert : Word → Word) (ls : List Lane) :
    (s.drawLanes convert ls).s3 = some ((ls.map advance).map Lane.s3) := rfl
@[simp] theorem State.drawLanes_seeded (s : State) (convert : Word → Word) (ls : List Lane) :
    (s.drawLanes convert ls).seeded = s.seeded := rfl
@[simp] theorem State.drawLanes_faulted (s : State) (convert : Word → Word) (ls : List Lane) :
    (s.drawLanes convert ls).faulted = s.faulted := rfl
@[simp] theorem State.drawLanes_faultCode (s : State) (convert : Word → Word) (ls : List Lane) :
    (s.drawLanes convert ls).faultCode = s.faultCode := rfl
@[simp] theorem State.drawLanes_inbox (s : State) (convert : Word → Word) (ls : List Lane) :
    (s.drawLanes convert ls).inbox = s.inbox := rfl
@[simp] theorem State.drawLanes_responses (s : State) (convert : Word → Word) (ls : List Lane) :
    (s.drawLanes convert ls).responses = s.responses ++ [⟨codeOk, vectorBytes (ls.map fun l => convert (outWord s.cfg.variant l))⟩] := rfl

@[simp] theorem State.setInbox_cfg (s : State) (hs : List HostStep) :
    (s.setInbox hs).cfg = s.cfg := rfl
@[simp] theorem State.setInbox_s0 (s : State) (hs : List HostStep) :
    (s.setInbox hs).s0 = s.s0 := rfl
@[simp] theorem State.setInbox_s1 (s : State) (hs : List HostStep) :
    (s.setInbox hs).s1 = s.s1 := rfl
@[simp] theorem State.setInbox_s2 (s : State) (hs : List HostStep) :
    (s.setInbox hs).s2 = s.s2 := rfl
@[simp] theorem State.setInbox_s3 (s : State) (hs : List HostStep) :
    (s.setInbox hs).s3 = s.s3 := rfl
@[simp] theorem State.setInbox_seeded (s : State) (hs : List HostStep) :
    (s.setInbox hs).seeded = s.seeded := rfl
@[simp] theorem State.setInbox_faulted (s : State) (hs : List HostStep) :
    (s.setInbox hs).faulted = s.faulted := rfl
@[simp] theorem State.setInbox_faultCode (s : State) (hs : List HostStep) :
    (s.setInbox hs).faultCode = s.faultCode := rfl
@[simp] theorem State.setInbox_inbox (s : State) (hs : List HostStep) :
    (s.setInbox hs).inbox = hs := rfl
@[simp] theorem State.setInbox_responses (s : State) (hs : List HostStep) :
    (s.setInbox hs).responses = s.responses := rfl

end Sys2Proof.Machine
end

