-- ==== Sys2Proof/Laws/Ops.lean ====
section
/-! SUPPORT. What each shared operation can do, said once. -/

namespace Sys2Proof.Machine

/-- Gathering four lists of one length gives a lane tuple for every index. -/
theorem gatherLanes_getElem? (a b c d : List Word) (n : Nat)
    (ha : a.length = n) (hb : b.length = n) (hc : c.length = n) (hd : d.length = n) :
    (gatherLanes a b c d).length = n ∧ (gatherLanes a b c d).map Lane.s0 = a ∧
      (gatherLanes a b c d).map Lane.s1 = b ∧ (gatherLanes a b c d).map Lane.s2 = c ∧
      (gatherLanes a b c d).map Lane.s3 = d := by
  induction n generalizing a b c d with
  | zero =>
    rw [List.length_eq_zero_iff] at ha hb hc hd
    subst ha hb hc hd
    simp [gatherLanes]
  | succ n ih =>
    obtain ⟨x, a, rfl⟩ := List.exists_cons_of_length_eq_add_one ha
    obtain ⟨y, b, rfl⟩ := List.exists_cons_of_length_eq_add_one hb
    obtain ⟨z, c, rfl⟩ := List.exists_cons_of_length_eq_add_one hc
    obtain ⟨w, d, rfl⟩ := List.exists_cons_of_length_eq_add_one hd
    have h := ih a b c d (by simpa using ha) (by simpa using hb) (by simpa using hc) (by simpa using hd)
    simp [gatherLanes, h]

/-- Splitting lane tuples into four registers and gathering them again loses nothing. -/
theorem gatherLanes_map (ls : List Lane) :
    gatherLanes (ls.map Lane.s0) (ls.map Lane.s1) (ls.map Lane.s2) (ls.map Lane.s3) = ls := by
  induction ls with
  | nil => rfl
  | cons l ls ih => simp [gatherLanes, ih]

/-- Reading back lanes just written. -/
theorem State.setLanes_lanes (s : State) (ls : List Lane) (h : ls.length = s.cfg.n) :
    (s.setLanes ls).lanes = some ls := by
  simp [State.lanes, h, gatherLanes_map]

/-- The lanes of a state depend on its registers and lane count alone. -/
theorem State.lanes_congr {s t : State} (hn : t.cfg.n = s.cfg.n) (h0 : t.s0 = s.s0) (h1 : t.s1 = s.s1)
    (h2 : t.s2 = s.s2) (h3 : t.s3 = s.s3) : t.lanes = s.lanes := by
  simp only [State.lanes, hn, h0, h1, h2, h3]

@[simp] theorem State.respond_lanes (s : State) (code : BitVec 8) (data : List Byte) :
    (s.respond code data).lanes = s.lanes := rfl

@[simp] theorem State.setInbox_lanes (s : State) (hs : List HostStep) : (s.setInbox hs).lanes = s.lanes := rfl

/-- The lanes after a draw are the advanced lanes. -/
theorem State.drawLanes_lanes (s : State) (convert : Word → Word) (ls : List Lane) (h : ls.length = s.cfg.n) :
    (s.drawLanes convert ls).lanes = some (ls.map advance) := by
  simp only [State.drawLanes, State.respond_lanes]
  exact s.setLanes_lanes _ (by simpa using h)

/-- Lanes that can be read are P_N in number. -/
theorem State.lanes_length {s : State} {ls : List Lane} (h : s.lanes = some ls) : ls.length = s.cfg.n := by
  unfold State.lanes at h
  split at h
  · split at h
    · rename_i hn
      cases h
      exact (gatherLanes_getElem? _ _ _ _ _ hn.1 hn.2.1 hn.2.2.1 hn.2.2.2).1
    · cases h
  · cases h

theorem holdsLanes_iff (n : Nat) (r : Option (List Word)) :
    holdsLanes n r = true ↔ ∃ l, r = some l ∧ l.length = n := by
  cases r <;> simp [holdsLanes]

/-- The lanes can be read exactly where the registers hold P_N lanes each. -/
theorem State.lanesHeld_iff (s : State) : s.lanesHeld = true ↔ ∃ ls, s.lanes = some ls := by
  simp only [State.lanesHeld, Bool.and_eq_true, holdsLanes_iff, State.lanes]
  constructor
  · rintro ⟨⟨⟨⟨a, ha, hna⟩, b, hb, hnb⟩, c, hc, hnc⟩, d, hd, hnd⟩
    exact ⟨_, by simp [ha, hb, hc, hd, hna, hnb, hnc, hnd]; rfl⟩
  · rintro ⟨ls, h⟩
    split at h
    · rename_i a b c d ha hb hc hd
      split at h
      · rename_i hn
        exact ⟨⟨⟨⟨a, ha, hn.1⟩, b, hb, hn.2.1⟩, c, hc, hn.2.2.1⟩, d, hd, hn.2.2.2⟩
      · cases h
    · cases h

/-- A seeded state that meets the invariant has readable lanes. -/
theorem State.Inv.lanes_of_seeded {s : State} (h : s.Inv) (hs : s.seeded = true) :
    ∃ ls, s.lanes = some ls ∧ ls.length = s.cfg.n := by
  have hl := h.lanes_iff_seeded
  rw [if_pos hs] at hl
  obtain ⟨ls, hls⟩ := s.lanesHeld_iff.1 hl
  exact ⟨ls, hls, State.lanes_length hls⟩

/-- A lane of a state whose lanes can be read. -/
theorem State.lane_eq {s : State} {ls : List Lane} (h : s.lanes = some ls) (j : Nat) : s.lane j = ls[j]? := by
  simp [State.lane, h]

@[simp] theorem length_seedReg (n : Nat) (payload : List Byte) (k : Nat) : (seedReg n payload k).length = n := by
  simp [seedReg]

/-- The lane tuples a seed payload gives. -/
def seedLanes (n : Nat) (payload : List Byte) : List Lane :=
  (List.range n).map fun j =>
    ⟨seedWord n payload 0 j, seedWord n payload 1 j, seedWord n payload 2 j, seedWord n payload 3 j⟩

/-- Reading the lanes a SEED just wrote. -/
theorem State.loadSeed_lanes (s : State) (payload : List Byte) :
    (s.loadSeed payload).lanes = some (seedLanes s.cfg.n payload) := by
  have h := gatherLanes_map (seedLanes s.cfg.n payload)
  simp only [seedLanes, List.map_map, Function.comp_def] at h
  simp [State.lanes, seedReg, seedLanes, h]

/-- Fault entry, as a relation. -/
theorem State.raise_faultEntered (s : State) (c : FaultCause) : s.FaultEntered (s.raise c) (faultCodeOf c) :=
  ⟨rfl, rfl, rfl, ⟨rfl, rfl, rfl, rfl⟩, rfl, rfl, rfl⟩

/-- Everything a guarded command can do. -/
theorem guarded_cases (f : Option FaultCause) (body : State → Host.Outcome State Fault Refusal) (s : State) :
    (s.faulted = true ∧ guarded f body s = .next s.reject) ∨
    (s.faulted = false ∧ ∃ c, f = some c ∧ guarded f body s = .next (s.raise c)) ∨
    (s.faulted = false ∧ f = none ∧ guarded f body s = body s) := by
  unfold guarded
  cases s.faulted <;> cases f <;> simp

/-- Everything the field check of a command without payload can say. -/
theorem bareFieldFault_cases (rsv : BitVec 8) (len : Nat) :
    (bareFieldFault rsv len = some .reservedField ∧ (rsv ≠ 0 ∨ len ≠ 0)) ∨
    (bareFieldFault rsv len = none ∧ rsv = 0 ∧ len = 0) := by
  unfold bareFieldFault
  split_ifs with h h'
  · exact .inl ⟨rfl, .inl h⟩
  · exact .inl ⟨rfl, .inr h'⟩
  · exact .inr ⟨rfl, not_not.1 h, not_not.1 h'⟩

/-- Everything the field check of SEED can say. -/
theorem seedFieldFault_cases (n : Nat) (rsv : BitVec 8) (len : Nat) :
    (seedFieldFault n rsv len = some .reservedField ∧ rsv ≠ 0) ∨
    (seedFieldFault n rsv len = some .seedLength ∧ rsv = 0 ∧ len ≠ 32 * n) ∨
    (seedFieldFault n rsv len = none ∧ rsv = 0 ∧ len = 32 * n) := by
  unfold seedFieldFault
  split_ifs with h h'
  · exact .inl ⟨rfl, h⟩
  · exact .inr (.inl ⟨rfl, not_not.1 h, h'⟩)
  · exact .inr (.inr ⟨rfl, not_not.1 h, not_not.1 h'⟩)

/-- Everything a draw can do in a state that meets the invariant. -/
theorem draw_cases (convert : Word → Word) (rsv : BitVec 8) (payload : List Byte) (s : State) (h : s.Inv) :
    (s.faulted = true ∧ draw convert rsv payload s = .next s.reject) ∨
    (s.faulted = false ∧ (rsv ≠ 0 ∨ payload.length ≠ 0) ∧
      draw convert rsv payload s = .next (s.raise .reservedField)) ∨
    (s.faulted = false ∧ rsv = 0 ∧ payload.length = 0 ∧ s.seeded = false ∧
      draw convert rsv payload s = .next (s.raise .notSeeded)) ∨
    (s.faulted = false ∧ rsv = 0 ∧ payload.length = 0 ∧ s.seeded = true ∧ ∃ ls, s.lanes = some ls ∧
      ls.length = s.cfg.n ∧ draw convert rsv payload s = .next (s.drawLanes convert ls)) := by
  unfold draw
  rcases guarded_cases (bareFieldFault rsv payload.length) (drawChecked convert) s with
    ⟨hf, e⟩ | ⟨hf, c, hc, e⟩ | ⟨hf, hn, e⟩
  · exact .inl ⟨hf, e⟩
  · rcases bareFieldFault_cases rsv payload.length with ⟨hb, hx⟩ | ⟨hb, -⟩
    · rw [hb] at hc
      cases hc
      exact .inr (.inl ⟨hf, hx, e⟩)
    · rw [hb] at hc; cases hc
  · rcases bareFieldFault_cases rsv payload.length with ⟨hb, -⟩ | ⟨-, hr, hp⟩
    · rw [hb] at hn; cases hn
    · rw [e]
      cases hs : s.seeded with
      | false => exact .inr (.inr (.inl ⟨hf, hr, hp, rfl, by simp [drawChecked, hs]⟩))
      | true =>
        obtain ⟨ls, hl, hll⟩ := h.lanes_of_seeded hs
        exact .inr (.inr (.inr ⟨hf, hr, hp, rfl, ls, hl, hll, by simp [drawChecked, hs, hl]⟩))

/-- Everything SEED can do. -/
theorem execSeed_cases (rsv : BitVec 8) (payload : List Byte) (s : State) :
    (s.faulted = true ∧ execSeed rsv payload s = .next s.reject) ∨
    (s.faulted = false ∧ rsv ≠ 0 ∧ execSeed rsv payload s = .next (s.raise .reservedField)) ∨
    (s.faulted = false ∧ rsv = 0 ∧ payload.length ≠ 32 * s.cfg.n ∧
      execSeed rsv payload s = .next (s.raise .seedLength)) ∨
    (s.faulted = false ∧ rsv = 0 ∧ payload.length = 32 * s.cfg.n ∧
      execSeed rsv payload s = .next ((s.loadSeed payload).respond codeOk [])) := by
  unfold execSeed
  rcases guarded_cases (seedFieldFault s.cfg.n rsv payload.length)
      (fun s => .next ((s.loadSeed payload).respond codeOk [])) s with ⟨hf, e⟩ | ⟨hf, c, hc, e⟩ | ⟨hf, hn, e⟩
  · exact .inl ⟨hf, e⟩
  · rcases seedFieldFault_cases s.cfg.n rsv payload.length with ⟨h, hr⟩ | ⟨h, hr, hl⟩ | ⟨h, -, -⟩ <;>
      rw [h] at hc <;> cases hc
    · exact .inr (.inl ⟨hf, hr, e⟩)
    · exact .inr (.inr (.inl ⟨hf, hr, hl, e⟩))
  · rcases seedFieldFault_cases s.cfg.n rsv payload.length with ⟨h, -⟩ | ⟨h, -, -⟩ | ⟨-, hr, hl⟩
    · rw [h] at hn; cases hn
    · rw [h] at hn; cases hn
    · exact .inr (.inr (.inr ⟨hf, hr, hl, e⟩))

/-- Everything STATUS can do. -/
theorem execStatus_cases (rsv : BitVec 8) (payload : List Byte) (s : State) :
    (s.faulted = true ∧ (rsv ≠ 0 ∨ payload.length ≠ 0) ∧ execStatus rsv payload s = .next s.reject) ∨
    (s.faulted = false ∧ (rsv ≠ 0 ∨ payload.length ≠ 0) ∧
      execStatus rsv payload s = .next (s.raise .reservedField)) ∨
    (rsv = 0 ∧ payload.length = 0 ∧
      execStatus rsv payload s = .next (s.respond codeOk (le32bytes s.statusWord))) := by
  unfold execStatus
  rcases bareFieldFault_cases rsv payload.length with ⟨h, hx⟩ | ⟨h, hr, hl⟩
  · cases hf : s.faulted
    · exact .inr (.inl ⟨rfl, hx, by simp [h]⟩)
    · exact .inl ⟨rfl, hx, if_pos ⟨rfl, hx⟩⟩
  · have hn : ¬(s.faulted = true ∧ (rsv ≠ 0 ∨ payload.length ≠ 0)) := fun hc => hc.2.elim (· hr) (· hl)
    exact .inr (.inr ⟨hr, hl, by rw [if_neg hn, h]⟩)

/-- Everything a word of no command can do. -/
theorem illegalCommand_cases (s : State) :
    (s.faulted = true ∧ illegalCommand s = .next s.reject) ∨
    (s.faulted = false ∧ illegalCommand s = .next (s.raise .illegalOpcode)) := by
  unfold illegalCommand
  cases s.faulted <;> simp

end Sys2Proof.Machine
end

