-- ==== Sys2Proof/Laws/Inv.lean ====
section
/-! SUPPORT. Every named operation keeps the invariant. -/

namespace Sys2Proof.Machine

theorem State.Inv.respond {s : State} (h : s.Inv) (code : BitVec 8) (data : List Byte) :
    (s.respond code data).Inv := ⟨h.1, h.2, h.3, h.4⟩

theorem State.Inv.reject {s : State} (h : s.Inv) : s.reject.Inv := h.respond _ _

theorem State.Inv.setInbox {s : State} (h : s.Inv) (hs : List HostStep) : (s.setInbox hs).Inv :=
  ⟨h.1, h.2, h.3, h.4⟩

/-- Fault entry leaves the invariant true whatever came before. -/
theorem State.raise_inv (s : State) (c : FaultCause) : (s.raise c).Inv := by
  refine ⟨by simp [State.noLanes], by simp, ?_, ?_⟩ <;> cases c <;> simp [faultCodeOf]

/-- A reset leaves the invariant true whatever came before. -/
theorem State.resetBlock_inv (s : State) : s.resetBlock.Inv := by
  refine ⟨by simp [State.noLanes], by simp, by simp, by simp⟩

theorem State.Inv.loadSeed {s : State} (h : s.Inv) (hf : s.faulted = false) (payload : List Byte) :
    (s.loadSeed payload).Inv := by
  refine ⟨?_, by simp [hf], h.3, h.4⟩
  simp [State.lanesHeld, holdsLanes]

theorem State.Inv.drawLanes {s : State} (h : s.Inv) (hs : s.seeded = true) (convert : Word → Word)
    (ls : List Lane) (hl : ls.length = s.cfg.n) : (s.drawLanes convert ls).Inv := by
  refine ⟨?_, h.2, h.3, h.4⟩
  have : (s.drawLanes convert ls).lanesHeld = true :=
    (State.lanesHeld_iff _).2 ⟨_, s.drawLanes_lanes convert ls hl⟩
  simp [hs, this]

end Sys2Proof.Machine
end

