-- ==== Sys2Proof/Laws/Lane.lean ====
section
/-! SUPPORT. Laws of the lane functions. -/

namespace Sys2Proof.Machine

/-- The rotation of 00_scope.md R11 is the library's. -/
theorem rotl_eq_rotateLeft (a : Word) (k : Nat) (hk : k < 64) : rotl a k = a.rotateLeft k := by
  simp only [rotl, BitVec.rotateLeft, BitVec.rotateLeftAux, Nat.mod_eq_of_lt hk]

@[simp] theorem advanceN_zero (l : Lane) : advanceN 0 l = l := rfl

@[simp] theorem advanceN_succ (k : Nat) (l : Lane) : advanceN (k + 1) l = advanceN k (advance l) := rfl

/-- One more advance may come last instead of first. -/
theorem advanceN_advance (k : Nat) (l : Lane) : advanceN k (advance l) = advance (advanceN k l) := by
  induction k generalizing l with
  | zero => rfl
  | succ k ih => exact ih (advance l)

@[simp] theorem length_scalarWords (v : Variant) (k : Nat) (l : Lane) : (scalarWords v k l).length = k := by
  induction k generalizing l with
  | zero => rfl
  | succ k ih => simp [scalarWords, ih]

/-- The k-th word of the scalar stream is the output of the k-times advanced state. -/
theorem scalarWords_getElem (v : Variant) (n k : Nat) (l : Lane) (h : k < n) :
    (scalarWords v n l)[k]? = some (scalarWord v l k) := by
  induction n generalizing k l with
  | zero => omega
  | succ n ih =>
    cases k with
    | zero => rfl
    | succ k => exact ih k (advance l) (by omega)

end Sys2Proof.Machine
end

