-- ==== Sys2Proof/Laws/PerInstr.lean ====
section
/-! SUPPORT. A statement about every command as it is written: the fields of its encoding (30_encoding.md R60, R62). -/

namespace Sys2Proof.Laws.CommandFields

/-- The word of a command the port can express holds its opcode, its RSV and its payload's length, and its bytes are
that word and the payload. -/
def Statement (i : Instr) : Prop :=
  i.wellFormed = true →
    cmdOpc (encodeCommand i) = opcodeOf i ∧ cmdRsv (encodeCommand i) = i.rsv ∧
      cmdLen (encodeCommand i) = i.payload.length ∧ (encode i).length = 4 + i.payload.length

/-- The fields are the encoder's, whichever the command. -/
theorem of_encode (i : Instr) : Statement i := by
  intro h
  have hl : i.payload.length < 2 ^ 16 := by simpa [Instr.wellFormed] using h
  refine ⟨by simp [encodeCommand], by simp [encodeCommand], ?_, by simp [encode]⟩
  rw [encodeCommand, cmdLen_packCommand, BitVec.toNat_ofNat, Nat.mod_eq_of_lt hl]

theorem seed (rsv : BitVec 8) (payload : List Byte) : Statement (.seed rsv payload) := of_encode _

theorem nextU64 (rsv : BitVec 8) (payload : List Byte) : Statement (.nextU64 rsv payload) := of_encode _

theorem nextF64 (rsv : BitVec 8) (payload : List Byte) : Statement (.nextF64 rsv payload) := of_encode _

theorem status (rsv : BitVec 8) (payload : List Byte) : Statement (.status rsv payload) := of_encode _

end Sys2Proof.Laws.CommandFields
end

