-- ==== Sys2Proof/Laws/Step.lean ====
section
/-! SUPPORT. What a step and a run do, and that what the host still has to say and what it was told before change
nothing in a command. -/

namespace Sys2Proof.Machine

theorem run_zero (s : State) : Sys2Proof.core.run 0 s = .next s := rfl

theorem run_succ_next {s t : State} (n : Nat) (h : step s = .next t) :
    Sys2Proof.core.run (n + 1) s = Sys2Proof.core.run n t := by
  have h' : Sys2Proof.core.step s = .next t := h
  simp only [Host.Core.run, h']

theorem run_succ_fault {s : State} {e : Fault} (n : Nat) (h : step s = .fault e) :
    Sys2Proof.core.run (n + 1) s = .fault e := by
  have h' : Sys2Proof.core.step s = .fault e := h
  simp only [Host.Core.run, h']

theorem run_succ_refused {s : State} {e : Refusal} (n : Nat) (h : step s = .refused e) :
    Sys2Proof.core.run (n + 1) s = .refused e := by
  have h' : Sys2Proof.core.step s = .refused e := h
  simp only [Host.Core.run, h']

theorem step_idle {s : State} (h : s.inbox = []) : step s = .next s := by
  simp only [step, h]

theorem step_cons {s : State} {x : HostStep} {rest : List HostStep} (h : s.inbox = x :: rest) :
    step s = hostStep x (s.setInbox rest) := by
  simp only [step, h]

/-- What an outcome's next state becomes under a change of it. -/
def mapNext (f : State → State) : Host.Outcome State Fault Refusal → Host.Outcome State Fault Refusal
  | .next t => .next (f t)
  | .fault e => .fault e
  | .refused e => .refused e

/-- A change of the state that the operations carry through. -/
structure Carries (f : State → State) : Prop where
  faulted : ∀ s, (f s).faulted = s.faulted
  seeded : ∀ s, (f s).seeded = s.seeded
  lanes : ∀ s, (f s).lanes = s.lanes
  count : ∀ s, (f s).cfg.n = s.cfg.n
  respond : ∀ s code data, (f s).respond code data = f (s.respond code data)
  raise : ∀ s c, (f s).raise c = f (s.raise c)
  draw : ∀ s convert ls, (f s).drawLanes convert ls = f (s.drawLanes convert ls)
  load : ∀ s payload, (f s).loadSeed payload = f (s.loadSeed payload)

/-- A change every operation carries through is carried through a guarded command. -/
theorem Carries.guarded {f : State → State} (hf : Carries f) (fault : Option FaultCause)
    {body : State → Host.Outcome State Fault Refusal} (s : State) (hb : body (f s) = mapNext f (body s)) :
    Machine.guarded fault body (f s) = mapNext f (Machine.guarded fault body s) := by
  have hr : (f s).reject = f s.reject := hf.respond s _ _
  unfold Machine.guarded
  rw [hf.faulted]
  cases s.faulted <;> cases fault <;> simp [mapNext, hr, hf.raise, hb]

/-- And through a draw. -/
theorem Carries.drawCommand {f : State → State} (hf : Carries f) (convert : Word → Word) (rsv : BitVec 8)
    (payload : List Byte) (s : State) :
    Machine.draw convert rsv payload (f s) = mapNext f (Machine.draw convert rsv payload s) := by
  apply hf.guarded
  unfold drawChecked
  rw [hf.seeded, hf.lanes]
  cases s.seeded
  · simp [mapNext, hf.raise]
  · cases s.lanes <;> simp [mapNext, hf.draw]

/-- And through SEED. -/
theorem Carries.execSeed {f : State → State} (hf : Carries f) (rsv : BitVec 8) (payload : List Byte) (s : State) :
    Machine.execSeed rsv payload (f s) = mapNext f (Machine.execSeed rsv payload s) := by
  unfold Machine.execSeed
  rw [hf.count]
  apply hf.guarded
  simp only [mapNext, hf.load, hf.respond]

/-- And through STATUS, where the STATUS word is the same. -/
theorem Carries.execStatus {f : State → State} (hf : Carries f) (rsv : BitVec 8) (payload : List Byte) (s : State)
    (hw : (f s).statusWord = s.statusWord) :
    Machine.execStatus rsv payload (f s) = mapNext f (Machine.execStatus rsv payload s) := by
  have hr : (f s).reject = f s.reject := hf.respond s _ _
  unfold Machine.execStatus
  rw [hf.faulted, hw]
  split
  · simp only [mapNext, hr]
  · cases bareFieldFault rsv payload.length <;> simp only [mapNext, hf.raise, hf.respond]

/-- And through a word of no command. -/
theorem Carries.illegalCommand {f : State → State} (hf : Carries f) (s : State) :
    Machine.illegalCommand (f s) = mapNext f (Machine.illegalCommand s) := by
  have hr : (f s).reject = f s.reject := hf.respond s _ _
  unfold Machine.illegalCommand
  rw [hf.faulted]
  split <;> simp only [mapNext, hr, hf.raise]

/-- The change of the port's two ends: other host steps to come, other responses before. -/
def State.onPort (hs : List HostStep) (earlier : List Response) (s : State) : State :=
  { s with inbox := hs, responses := earlier ++ s.responses }

theorem carries_onPort (hs : List HostStep) (earlier : List Response) : Carries (State.onPort hs earlier) where
  faulted _ := rfl
  seeded _ := rfl
  lanes _ := rfl
  count _ := rfl
  respond s code data := by simp [State.onPort, State.respond]
  raise s c := by simp [State.onPort, State.raise, State.respond, State.dropLanes]
  draw s convert ls := by simp [State.onPort, State.drawLanes, State.setLanes, State.respond]
  load s payload := by simp [State.onPort, State.loadSeed]

end Sys2Proof.Machine
end

