-- ==== Sys2Proof/Laws/Transact.lean ====
section
/-! SUPPORT. Everything a transaction can do, said once, in terms of the command word's fields. -/

namespace Sys2Proof.Machine

/-- What a transaction left of `s`, and when: rejected, one of the four faults, or one of the four commands' effects. -/
inductive TransactEffect (cmd : CmdWord) (payload : List Byte) (s : State) : State → Prop
  | rejected (hf : s.faulted = true) (hc : cmd ≠ 0x00000004) : TransactEffect cmd payload s s.reject
  | illegalOpcode (hf : s.faulted = false) (ho : cmd.toNat % 2 ^ 8 = 0 ∨ 4 < cmd.toNat % 2 ^ 8) :
      TransactEffect cmd payload s (s.raise .illegalOpcode)
  | reservedField (hf : s.faulted = false) (ho : 1 ≤ cmd.toNat % 2 ^ 8 ∧ cmd.toNat % 2 ^ 8 ≤ 4)
      (hr : cmd.toNat / 2 ^ 8 % 2 ^ 8 ≠ 0 ∨ (cmd.toNat % 2 ^ 8 ≠ 1 ∧ cmd.toNat / 2 ^ 16 ≠ 0)) :
      TransactEffect cmd payload s (s.raise .reservedField)
  | seedLength (hf : s.faulted = false) (ho : cmd.toNat % 2 ^ 8 = 1) (hr : cmd.toNat / 2 ^ 8 % 2 ^ 8 = 0)
      (hl : cmd.toNat / 2 ^ 16 ≠ 32 * s.cfg.n) : TransactEffect cmd payload s (s.raise .seedLength)
  | notSeeded (hf : s.faulted = false) (hs : s.seeded = false)
      (ho : cmd.toNat % 2 ^ 8 = 2 ∨ cmd.toNat % 2 ^ 8 = 3) (hr : cmd.toNat / 2 ^ 8 % 2 ^ 8 = 0)
      (hl : cmd.toNat / 2 ^ 16 = 0) : TransactEffect cmd payload s (s.raise .notSeeded)
  | seeded (hf : s.faulted = false) (ho : cmd.toNat % 2 ^ 8 = 1) (hr : cmd.toNat / 2 ^ 8 % 2 ^ 8 = 0)
      (hl : cmd.toNat / 2 ^ 16 = 32 * s.cfg.n) :
      TransactEffect cmd payload s ((s.loadSeed payload).respond codeOk [])
  | drawn (convert : Word → Word) (ls : List Lane)
      (hconv : convert = if cmd.toNat % 2 ^ 8 = 2 then id else u2d) (hls : s.lanes = some ls) (hf : s.faulted = false)
      (hs : s.seeded = true) (ho : cmd.toNat % 2 ^ 8 = 2 ∨ cmd.toNat % 2 ^ 8 = 3)
      (hr : cmd.toNat / 2 ^ 8 % 2 ^ 8 = 0) (hl : cmd.toNat / 2 ^ 16 = 0) :
      TransactEffect cmd payload s (s.drawLanes convert ls)
  | status (hc : cmd = 0x00000004) : TransactEffect cmd payload s (s.respond codeOk (le32bytes s.statusWord))

/-- The exact STATUS word, by its fields. -/
theorem cmd_eq_status_iff (cmd : CmdWord) :
    cmd = 0x00000004 ↔
      cmd.toNat % 2 ^ 8 = 4 ∧ cmd.toNat / 2 ^ 8 % 2 ^ 8 = 0 ∧ cmd.toNat / 2 ^ 16 = 0 := by
  constructor
  · rintro rfl; decide
  · intro h
    apply BitVec.eq_of_toNat_eq
    have : cmd.toNat = 4 := by omega
    rw [this]
    rfl

theorem cmdRsv_eq_zero_iff (cmd : CmdWord) : cmdRsv cmd = 0 ↔ cmd.toNat / 2 ^ 8 % 2 ^ 8 = 0 := by
  rw [← cmdRsv_toNat, ← BitVec.toNat_inj]
  rfl

/-- A payload of LEN bytes leaves decoding to the opcode. -/
theorem decodeCommand_of_length {cmd : CmdWord} {payload : List Byte} (h : payload.length = cmdLen cmd) :
    decodeCommand cmd payload =
      match opcodeInstr (cmdOpc cmd) (cmdRsv cmd) payload with
      | some i => .ok i
      | none => .error .illegalOpcode := by
  unfold decodeCommand
  exact if_neg (not_not.2 h)

/-- A transaction that has a move has a payload of LEN bytes. -/
theorem length_of_transact_next {cmd : CmdWord} {payload : List Byte} {s t : State}
    (h : transact cmd payload s = .next t) : payload.length = cmdLen cmd := by
  by_contra hl
  simp [transact, decodeCommand, hl] at h

/-- What a draw's transaction can do. -/
theorem transactEffect_of_draw {cmd : CmdWord} {payload : List Byte} {s t : State} {convert : Word → Word}
    (hl : payload.length = cmdLen cmd) (ho : cmd.toNat % 2 ^ 8 = 2 ∨ cmd.toNat % 2 ^ 8 = 3)
    (hconv : convert = if cmd.toNat % 2 ^ 8 = 2 then id else u2d)
    (h : draw convert (cmdRsv cmd) payload s = .next t) : TransactEffect cmd payload s t := by
  rw [cmdLen_eq] at hl
  unfold draw at h
  rcases bareFieldFault_cases (cmdRsv cmd) payload.length with ⟨hb, hx⟩ | ⟨hb, hr, hp⟩ <;>
    rcases guarded_cases (bareFieldFault (cmdRsv cmd) payload.length) (drawChecked convert) s with
      ⟨hf, e⟩ | ⟨hf, c, hc, e⟩ | ⟨hf, hn, e⟩ <;> rw [e] at h
  · cases h
    exact .rejected hf (by rw [Ne, cmd_eq_status_iff]; omega)
  · rw [hb] at hc
    cases hc
    cases h
    rw [Ne, cmdRsv_eq_zero_iff] at hx
    exact .reservedField hf (by omega) (by omega)
  · rw [hb] at hn; cases hn
  · cases h
    exact .rejected hf (by rw [Ne, cmd_eq_status_iff]; omega)
  · rw [hb] at hc; cases hc
  · rw [cmdRsv_eq_zero_iff] at hr
    unfold drawChecked at h
    split at h
    · rename_i hs
      cases h
      exact .notSeeded hf hs ho hr (by omega)
    · rename_i hs
      split at h
      · rename_i ls hls
        cases h
        exact .drawn convert ls hconv hls hf (by simpa using hs) ho hr (by omega)
      · cases h

/-- Everything a transaction can do, in any state. -/
theorem transact_effect {cmd : CmdWord} {payload : List Byte} {s t : State}
    (h : transact cmd payload s = .next t) : TransactEffect cmd payload s t := by
  have hl := length_of_transact_next h
  have hl' := hl
  rw [cmdLen_eq] at hl'
  have hopc := cmdOpc_toNat cmd
  have hrsv := cmdRsv_eq_zero_iff cmd
  rw [transact, decodeCommand_of_length hl] at h
  cases ho : opcodeInstr (cmdOpc cmd) (cmdRsv cmd) payload with
  | none =>
    rw [ho] at h
    have hn : ¬ (cmdOpc cmd).toNat = 1 ∧ ¬ (cmdOpc cmd).toNat = 2 ∧ ¬ (cmdOpc cmd).toNat = 3 ∧
        ¬ (cmdOpc cmd).toNat = 4 := by
      refine ⟨?_, ?_, ?_, ?_⟩ <;> intro hk <;> rw [opcodeInstr, hk] at ho <;> cases ho
    have hx : cmd.toNat % 2 ^ 8 = 0 ∨ 4 < cmd.toNat % 2 ^ 8 := by omega
    rcases illegalCommand_cases s with ⟨hf, e⟩ | ⟨hf, e⟩ <;> simp only [e] at h <;> cases h
    · exact .rejected hf (by rw [Ne, cmd_eq_status_iff]; omega)
    · exact .illegalOpcode hf hx
  | some i =>
    rw [ho] at h
    obtain ⟨a, b, c⟩ := opcodeInstr_some ho
    cases i with
    | seed r q =>
      simp only [Instr.rsv, Instr.payload] at b c
      subst b c
      have ho1 : cmd.toNat % 2 ^ 8 = 1 := by rw [← hopc, ← a]; rfl
      rcases execSeed_cases (cmdRsv cmd) q s with
        ⟨hf, e⟩ | ⟨hf, hx, e⟩ | ⟨hf, hr, hx, e⟩ | ⟨hf, hr, hx, e⟩ <;> simp only [exec, e] at h <;> cases h
      · exact .rejected hf (by rw [Ne, cmd_eq_status_iff]; omega)
      · exact .reservedField hf (by omega) (by rw [Ne, hrsv] at hx; omega)
      · exact .seedLength hf ho1 (hrsv.1 hr) (by omega)
      · exact .seeded hf ho1 (hrsv.1 hr) (by omega)
    | nextU64 r q =>
      simp only [Instr.rsv, Instr.payload] at b c
      subst b c
      have ho2 : cmd.toNat % 2 ^ 8 = 2 := by rw [← hopc, ← a]; rfl
      exact transactEffect_of_draw hl (.inl ho2) (if_pos ho2).symm h
    | nextF64 r q =>
      simp only [Instr.rsv, Instr.payload] at b c
      subst b c
      have ho3 : cmd.toNat % 2 ^ 8 = 3 := by rw [← hopc, ← a]; rfl
      exact transactEffect_of_draw hl (.inr ho3) (if_neg (by omega)).symm h
    | status r q =>
      simp only [Instr.rsv, Instr.payload] at b c
      subst b c
      have ho1 : cmd.toNat % 2 ^ 8 = 4 := by rw [← hopc, ← a]; rfl
      rcases execStatus_cases (cmdRsv cmd) q s with ⟨hf, hx, e⟩ | ⟨hf, hx, e⟩ | ⟨hr, hx, e⟩ <;>
        simp only [exec, e] at h <;> cases h
      · rw [Ne, hrsv] at hx
        exact .rejected hf (by rw [Ne, cmd_eq_status_iff]; omega)
      · rw [Ne, hrsv] at hx
        exact .reservedField hf (by omega) (by omega)
      · exact .status ((cmd_eq_status_iff cmd).2 ⟨ho1, hrsv.1 hr, by omega⟩)

/-- A transaction of LEN bytes always has a move in a state that meets the invariant. -/
theorem transact_next {cmd : CmdWord} {payload : List Byte} {s : State} (hi : s.Inv)
    (hl : payload.length = cmdLen cmd) : ∃ t, transact cmd payload s = .next t := by
  rw [transact, decodeCommand_of_length hl]
  cases opcodeInstr (cmdOpc cmd) (cmdRsv cmd) payload with
  | none => rcases illegalCommand_cases s with ⟨-, e⟩ | ⟨-, e⟩ <;> exact ⟨_, e⟩
  | some i =>
    cases i with
    | seed r p => rcases execSeed_cases r p s with ⟨-, e⟩ | ⟨-, -, e⟩ | ⟨-, -, -, e⟩ | ⟨-, -, -, e⟩ <;> exact ⟨_, e⟩
    | nextU64 r p =>
      rcases draw_cases id r p s hi with ⟨-, e⟩ | ⟨-, -, e⟩ | ⟨-, -, -, -, e⟩ | ⟨-, -, -, -, ls, -, -, e⟩ <;>
        exact ⟨_, e⟩
    | nextF64 r p =>
      rcases draw_cases u2d r p s hi with ⟨-, e⟩ | ⟨-, -, e⟩ | ⟨-, -, -, -, e⟩ | ⟨-, -, -, -, ls, -, -, e⟩ <;>
        exact ⟨_, e⟩
    | status r p => rcases execStatus_cases r p s with ⟨-, -, e⟩ | ⟨-, -, e⟩ | ⟨-, -, e⟩ <;> exact ⟨_, e⟩

end Sys2Proof.Machine
end

