-- ==== Sys2Proof/Tests/Slice0.lean ====
section
/-! SUPPORT. The model's own tests. Expected values are the spec's vectors (95_test_vectors.md, T and V numbers) or hand
calculation from the rule named. The `witness_` theorems show concrete states and operands that meet the hypotheses of
the statement they are named after, one for each of its clauses. -/

namespace Sys2Proof.Tests

open Sys2Proof.Machine

/-! ### Helpers -/

/-- The next state of an outcome. -/
def nextOf : Host.Outcome State Fault Refusal → Option State
  | .next t => some t
  | .fault _ => none
  | .refused _ => none

/-- The last response of an outcome's next state. -/
def answer (o : Host.Outcome State Fault Refusal) : Option Response := (nextOf o).bind fun t => t.responses.getLast?

/-- The response's code and the STATUS word after a transaction, as the rows of T8 give them. -/
def codeAndStatus (s : State) (cmd : CmdWord) (payload : List Byte) : Option (BitVec 8 × BitVec 32) :=
  (nextOf (step (s.present cmd payload))).bind fun t => t.responses.getLast?.map fun r => (r.code, t.statusWord)

/-- V1's start state on the reference build: every lane at (1, 2, 3, 4). -/
def seeded4 : State :=
  { State.reset with
    s0 := some [1, 1, 1, 1], s1 := some [2, 2, 2, 2], s2 := some [3, 3, 3, 3], s3 := some [4, 4, 4, 4], seeded := true }

/-- T6's start state: four different lanes, lane 1 all zero. -/
def mixed4 : State :=
  { State.reset with
    s0 := some [1, 0, 0xFFFFFFFFFFFFFFFF, 0x0123456789ABCDEF]
    s1 := some [2, 0, 0xFFFFFFFFFFFFFFFF, 0xFEDCBA9876543210]
    s2 := some [3, 0, 0xFFFFFFFFFFFFFFFF, 0x0F0F0F0F0F0F0F0F]
    s3 := some [4, 0, 0xFFFFFFFFFFFFFFFF, 0xF0F0F0F0F0F0F0F0]
    seeded := true }

/-- P2's start state on `xoshiro256p-x8-portable`. -/
def seeded8 : State :=
  { State.resetOf ⟨.eight, .plus, .portable⟩ with
    s0 := some [1, 2, 3, 4, 5, 6, 7, 8], s1 := some [2, 3, 4, 5, 6, 7, 8, 9]
    s2 := some [3, 4, 5, 6, 7, 8, 9, 10], s3 := some [4, 5, 6, 7, 8, 9, 10, 11]
    seeded := true }

/-- A block faulted by a draw before any SEED. -/
def faulted4 : State := { State.reset with faulted := true, faultCode := 2 }

/-- A payload of zeros. -/
def zeros (n : Nat) : List Byte := List.replicate n 0

theorem seeded4_inv : seeded4.Inv := ⟨by decide, by decide, by decide, by decide⟩

theorem mixed4_inv : mixed4.Inv := ⟨by decide, by decide, by decide, by decide⟩

theorem seeded8_inv : seeded8.Inv := ⟨by decide, by decide, by decide, by decide⟩

theorem faulted4_inv : faulted4.Inv := ⟨by decide, by decide, by decide, by decide⟩

theorem reset_inv : State.reset.Inv := ⟨by decide, by decide, by decide, by decide⟩

/-! ### Well-formedness: each check refuses a term -/

theorem length_zeros (n : Nat) : (zeros n).length = n := List.length_replicate

theorem wellFormed_zeros (n : Nat) : (Instr.seed 0 (zeros n)).wellFormed = decide (n < 2 ^ 16) := by
  rw [Instr.wellFormed, Instr.payload, length_zeros]

/-- 65536 payload bytes do not fit LEN (R60). -/
theorem test_wellFormed_refuses_long_payload : (Instr.seed 0 (zeros 65536)).wellFormed = false :=
  (wellFormed_zeros 65536).trans (by decide)

theorem test_wellFormed_takes_longest_payload : (Instr.seed 0 (zeros 65535)).wellFormed = true :=
  (wellFormed_zeros 65535).trans (by decide)

/-- RSV must be 0 (R62). -/
theorem test_legal_refuses_rsv : (Instr.nextU64 1 []).legal Config.reference = false := by decide

/-- LEN must be 0 on a draw and on STATUS, 32·P_N on SEED (R62). -/
theorem test_legal_refuses_len :
    (Instr.nextF64 0 [0]).legal Config.reference = false ∧ (Instr.status 0 [0]).legal Config.reference = false ∧
    (Instr.seed 0 [0]).legal Config.reference = false ∧ (Instr.nextU64 0 []).legal Config.reference = true := by decide

/-! ### Decoding: words written out from R60 and R62 as LEN, RSV, OPC -/

theorem test_decode_nextU64 :
    decodeCommand 0b0000000000000000_00000000_00000010 [] = .ok (.nextU64 0 []) := rfl

theorem test_decode_nextF64 :
    decodeCommand 0b0000000000000000_00000000_00000011 [] = .ok (.nextF64 0 []) := rfl

theorem test_decode_status :
    decodeCommand 0b0000000000000000_00000000_00000100 [] = .ok (.status 0 []) := rfl

/-- LEN 3, RSV 0xA5. -/
theorem test_decode_seed_fields :
    decodeCommand 0b0000000000000011_10100101_00000001 [7, 8, 9] = .ok (.seed 0xA5 [7, 8, 9]) := rfl

/-- LEN 128: SEED's word for four lanes. -/
theorem test_decode_seed4 :
    decodeCommand 0b0000000010000000_00000000_00000001 (zeros 128) = .ok (.seed 0 (zeros 128)) := by
  have h : (zeros 128).length = cmdLen 0b0000000010000000_00000000_00000001 := (length_zeros 128).trans (by decide)
  simp only [decodeCommand, h, ne_eq, not_true_eq_false, if_false]
  rfl

/-- LEN 256: SEED's word for eight lanes (R62: 0x01000001). -/
theorem test_decode_seed8 :
    (0b0000000100000000_00000000_00000001 : CmdWord) = 0x01000001 ∧ cmdLen 0x01000001 = 256 ∧
    (opcodeInstr (cmdOpc 0x01000001) (cmdRsv 0x01000001) []).map Instr.mnemonic = some "SEED" := by decide

/-- OPC 0, 5 and 255 name no command, whatever RSV (R62, R64). -/
theorem test_decode_illegal :
    decodeCommand 0x00000000 [] = .error .illegalOpcode ∧ decodeCommand 0x00000005 [] = .error .illegalOpcode ∧
    decodeCommand 0x000000FF [] = .error .illegalOpcode ∧ decodeCommand 0x00000100 [] = .error .illegalOpcode :=
  ⟨rfl, rfl, rfl, rfl⟩

/-- The bytes of a command, the word least significant byte first, then the payload, then the next command's bytes. -/
theorem test_decode_bytes :
    decode [0x02, 0x00, 0x01, 0x00, 0xEE, 0x55] = .ok (.nextU64 0 [0xEE], [0x55]) ∧
    decode [0x02, 0x00, 0x01, 0x00] = .error .truncated ∧ decode [0x02, 0x00, 0x00] = .error .truncated ∧
    decode [0x06, 0x00, 0x00, 0x00] = .error .illegalOpcode := ⟨rfl, rfl, rfl, rfl⟩

theorem test_encode_bytes :
    encode (.status 0 []) = [0x04, 0x00, 0x00, 0x00] ∧ encode (.seed 0x12 [9, 8]) = [0x01, 0x12, 0x02, 0x00, 9, 8] := by
  decide

/-- A table word: SEED's sixteen bits, and the others' thirty-two. -/
theorem test_decodeTableWord :
    decodeTableWord 16 1 = some (.seed 0 []) ∧ decodeTableWord 32 0x00030001 = some (.seed 0 [0, 0, 0]) ∧
    decodeTableWord 32 2 = some (.nextU64 0 []) ∧ decodeTableWord 32 3 = some (.nextF64 0 []) ∧
    decodeTableWord 32 4 = some (.status 0 []) ∧ decodeTableWord 32 5 = none := by decide

/-- No two rows of the table share a word (R63). -/
theorem test_table_rows_disjoint :
    opcodeTable.Pairwise fun a b => a.pattern &&& (a.mask &&& b.mask) ≠ b.pattern &&& (a.mask &&& b.mask) := by decide

/-- The next step runs the word that was placed: STATUS after reset (T7). -/
theorem test_withFetchWord :
    answer (step (State.reset.withFetchWord 32 4)) = some ⟨0x00, [0x00, 0x02, 0x00, 0x01]⟩ := by decide

/-! ### The lane functions -/

/-- V1, the ten words of §8 of the source. -/
theorem test_V1 : scalarWords .plusPlus 10 ⟨1, 2, 3, 4⟩ =
    [41943041, 58720359, 3588806011781223, 3591011842654386, 9228616714210784205, 9973669472204895162,
     14011001112246962877, 12406186145184390807, 15849039046786891736, 10450023813501588000] := by decide

/-- V2, the ten words of §8 of the source. -/
theorem test_V2 : scalarWords .plus 10 ⟨1, 2, 3, 4⟩ =
    [5, 211106232532999, 211106635186183, 9223759065350669058, 9250833439874351877, 13862484359527728515,
     2346507365006083650, 1168864526675804870, 34095955243042024, 3466914240207415127] := by decide

/-- T1: wraps of both additions, and s1 and s2 not read. -/
theorem test_T1 :
    outPlus ⟨0x8000000000000000, 0, 0, 0x8000000000000000⟩ = 0 ∧
    outPlusPlus ⟨0x8000000000000000, 0, 0, 0x8000000000000000⟩ = 0x8000000000000000 ∧
    outPlusPlus ⟨0, 0, 0, 1⟩ = 0x0000000000800000 ∧ outPlusPlus ⟨0, 1, 1, 0⟩ = 0 ∧
    outPlusPlus ⟨0xFFFFFFFFFFFFFFFF, 0xFFFFFFFFFFFFFFFF, 0xFFFFFFFFFFFFFFFF, 0xFFFFFFFFFFFFFFFF⟩ =
      0xFFFFFFFFFF7FFFFE := by decide

/-- T2: each input word alone. -/
theorem test_T2 :
    advance ⟨1, 0, 0, 0⟩ = ⟨1, 1, 1, 0⟩ ∧ advance ⟨0, 1, 0, 0⟩ = ⟨1, 1, 0x20000, 0x0000200000000000⟩ ∧
    advance ⟨0, 0, 1, 0⟩ = ⟨0, 1, 1, 0⟩ ∧ advance ⟨0, 0, 0, 1⟩ = ⟨1, 0, 0, 0x0000200000000000⟩ ∧
    advance ⟨0, 0x8000000000000000, 0, 0⟩ = ⟨0x8000000000000000, 0x8000000000000000, 0, 0x0000100000000000⟩ ∧
    advance ⟨1, 2, 3, 4⟩ = ⟨7, 0, 0x40002, 0x0000C00000000000⟩ ∧
    unadvance ⟨7, 0, 0x40002, 0x0000C00000000000⟩ = ⟨1, 2, 3, 4⟩ := by decide

/-- T6, lane 3, both variants. -/
theorem test_T6 :
    scalarWords .plusPlus 3 ⟨0x0123456789ABCDEF, 0xFEDCBA9876543210, 0x0F0F0F0F0F0F0F0F, 0xF0F0F0F0F0F0F0F0⟩ =
      [0x2D6093C6F9A4D80A, 0x795B3D1F00E2C497, 0x0FAE6B09A7C4C370] ∧
    scalarWords .plus 3 ⟨0x0123456789ABCDEF, 0xFEDCBA9876543210, 0x0F0F0F0F0F0F0F0F, 0xF0F0F0F0F0F0F0F0⟩ =
      [0xF21436587A9CBEDF, 0xA76B10D4985C1FE3, 0x23A88B5014D99E62] := by decide

/-- T5: the conversion's table. -/
theorem test_T5 :
    u2d 0x00000000000007FF = 0 ∧ u2d 0x0000000000000800 = 0x3CA0000000000000 ∧
    u2d 0x0000000000001000 = 0x3CB0000000000000 ∧ u2d 0x0000000002800001 = 0x3D84000000000000 ∧
    u2d 0x8000000000000000 = 0x3FE0000000000000 ∧ u2d 0xFFFFFFFFFFFFF7FF = 0x3FEFFFFFFFFFFFFE ∧
    u2d 0xFFFFFFFFFFFFF800 = 0x3FEFFFFFFFFFFFFF ∧ u2d 0xFFFFFFFFFFFFFFFF = 0x3FEFFFFFFFFFFFFF := by decide

/-- The bias is 1023: 0x3FE0000000000000 denotes 0.5 (T5), and 0x3FF0000000000000 denotes 1 (R111's layout). -/
theorem test_f64Value_bias :
    f64Value 0x3FE0000000000000 = some (1 / 2) ∧ f64Value 0x3FF0000000000000 = some 1 := by
  decide +kernel

/-- R112: the smallest non-zero result denotes 2^-53 and the largest 1 - 2^-53. -/
theorem test_f64Value_ends :
    f64Value 0x3CA0000000000000 = some (1 / 2 ^ 53) ∧ f64Value 0x3FEFFFFFFFFFFFFF = some (1 - 1 / 2 ^ 53) := by
  decide +kernel

/-! ### Commands -/

/-- P4, step 1 in small: lane j of Sk is word k·4 + j of the payload, least significant byte first (R45). -/
theorem test_seed_layout :
    (nextOf (exec (.seed 0 (vectorBytes [1, 2, 3, 4, 5, 6, 7, 8, 9, 10, 11, 12, 13, 14, 15, 0xFEDCBA9876543210]))
      State.reset)).map (fun t => (t.seeded, t.s0, t.s1, t.s3)) =
    some (true, some [1, 2, 3, 4], some [5, 6, 7, 8], some [13, 14, 15, 0xFEDCBA9876543210]) := by
  decide +kernel

/-- T4: the draw's bytes and the state of V1 after draw 1. -/
theorem test_nextU64 :
    (nextOf (exec (.nextU64 0 []) seeded4)).map (fun t => (t.responses, t.s2, t.s3)) =
    some ([⟨0x00, (List.replicate 4 [0x01, 0x00, 0x80, 0x02, 0, 0, 0, 0]).flatten⟩],
      some [0x40002, 0x40002, 0x40002, 0x40002],
      some [0x0000C00000000000, 0x0000C00000000000, 0x0000C00000000000, 0x0000C00000000000]) := by decide

/-- P2, step 2: eight lanes, Plus. -/
theorem test_nextU64_x8 :
    (answer (exec (.nextU64 0 []) seeded8)).map (fun r => (List.range 8).map (responseWord r.data)) =
    some [0x5, 0x7, 0x9, 0xB, 0xD, 0xF, 0x11, 0x13] := by decide

/-- P3, step 12: the first double of every lane, and the same advance. -/
theorem test_nextF64 :
    (nextOf (exec (.nextF64 0 []) seeded4)).map (fun t => (t.responses.map fun r => responseWord r.data 3, t.s0)) =
    some ([0x3D84000000000000], some [7, 7, 7, 7]) := by decide

/-- T7: STATUS after reset in every configuration. -/
theorem test_T7 :
    Config.all.map (fun c => (State.resetOf c).statusWord) =
    [0x01000000, 0x01000400, 0x01000200, 0x01000600, 0x01000100, 0x01000500, 0x01000300, 0x01000700] := by decide

/-- P1, step 6, and P3, step 4: STATUS of a seeded and of a faulted block. -/
theorem test_status :
    answer (exec (.status 0 []) seeded4) = some ⟨0x00, [0x01, 0x02, 0x00, 0x01]⟩ ∧
    answer (exec (.status 0 []) faulted4) = some ⟨0x00, [0x22, 0x02, 0x00, 0x01]⟩ := by decide

/-- T8: illegal opcodes, and illegal before reserved. -/
theorem test_T8_illegal :
    codeAndStatus State.reset 0x00000000 [] = some (0x03, 0x01000232) ∧
    codeAndStatus State.reset 0x00000005 [] = some (0x03, 0x01000232) ∧
    codeAndStatus State.reset 0x000000FF [] = some (0x03, 0x01000232) ∧
    codeAndStatus State.reset 0x00000100 [] = some (0x03, 0x01000232) := by decide

/-- T8: reserved fields, before NOT_SEEDED. -/
theorem test_T8_reserved :
    codeAndStatus State.reset 0x00000102 [] = some (0x04, 0x01000242) ∧
    codeAndStatus State.reset 0x00010002 [0] = some (0x04, 0x01000242) ∧
    codeAndStatus seeded4 0x00010002 [0] = some (0x04, 0x01000242) ∧
    codeAndStatus seeded4 0x00010004 [0] = some (0x04, 0x01000242) ∧
    codeAndStatus State.reset 0x00000104 [] = some (0x04, 0x01000242) := by decide

/-- T8: reserved before length on SEED (here with LEN 0), and SEED_LENGTH. -/
theorem test_T8_seed :
    codeAndStatus State.reset 0x00000101 [] = some (0x04, 0x01000242) ∧
    codeAndStatus State.reset 0x00000001 [] = some (0x01, 0x01000212) := by decide

/-- T8: NOT_SEEDED, and the faulted block. -/
theorem test_T8_unseeded :
    codeAndStatus State.reset 0x00000002 [] = some (0x02, 0x01000222) ∧
    codeAndStatus State.reset 0x00000003 [] = some (0x02, 0x01000222) ∧
    codeAndStatus faulted4 0x00000002 [] = some (0x0F, 0x01000222) ∧
    codeAndStatus faulted4 0x00000104 [] = some (0x0F, 0x01000222) ∧
    codeAndStatus faulted4 0x00000004 [] = some (0x00, 0x01000222) := by decide

/-- A fault drops the lanes (R136). -/
theorem test_fault_drops_lanes :
    (nextOf (step (seeded4.present 0 []))).map (fun t => (t.noLanes, t.seeded, t.safe)) = some (true, false, false) := by
  decide

/-- P3, step 6: reset after a fault. -/
theorem test_reset_after_fault :
    (nextOf (step (faulted4.setInbox [.reset]))).map (fun t => (t.statusWord, t.observation)) =
    some (0x01000200, ⟨[], false, false, 0, none, none, none, none⟩) := by decide

/-! ### Identity strings and the assembler -/

/-- R2's two examples. -/
theorem test_identity :
    Config.identity ⟨.four, .plusPlus, .portable⟩ = "xoshiro256pp-x4-portable" ∧
    Config.identity ⟨.eight, .plus, .hwSpecific⟩ = "xoshiro256p-x8-hw" := ⟨rfl, rfl⟩

/-- A mnemonic in lower case, and a comment (R65). -/
theorem test_line_comment :
    readLine ['n', 'e', 'x', 't', '.', 'u', '6', '4', ' ', ';', 'x'] = .ok (some .nextU64) ∧
    readLine [' ', ';', 'x'] = .ok none := ⟨rfl, rfl⟩

/-- NEXT without suffix is refused (R67). -/
theorem test_line_next : readLine ['N', 'E', 'X', 'T'] = .error .unknownMnemonic := rfl

/-- P3, step 5, as text. -/
theorem test_line_raw :
    assembleLines Config.reference
      [['.', 'r', 'a', 'w', ' ', '0', 'x', '0', '0', '0', '1', '0', '0', '0', '4', ',', ' ', '1', '2']] =
    .ok [.command 0x00010004 [12]] := rfl

/-- R66's example on words that tell the lanes apart. -/
theorem test_transpose :
    transposeLanes [[1, 2, 3, 4], [5, 6, 7, 8], [9, 10, 11, 12], [13, 14, 15, 16]] =
    [1, 5, 9, 13, 2, 6, 10, 14, 3, 7, 11, 15, 4, 8, 12, 16] := by decide

/-- The assembler's refusals (R65, R66). -/
theorem test_assembler_refuses :
    assemble Config.reference (.seed [5]) = .error .wordCount ∧
    assemble Config.reference (.seed (List.replicate 15 0 ++ [2 ^ 64])) = .error .literalRange ∧
    assemble Config.reference (.seedLanes [[1, 2, 3, 4]]) = .error .tupleCount ∧
    assemble Config.reference (.raw 0x00010002 []) = .error .rawLength := ⟨rfl, rfl, rfl, rfl⟩

/-! ### Witnesses -/

theorem cmdLen_seed4 : cmdLen 0x00800001 = 128 := by decide

theorem zeros_seed4 : (zeros 128).length = cmdLen 0x00800001 := (length_zeros 128).trans cmdLen_seed4.symm

theorem witness_ResetClearsTheBlock : (faulted4.setInbox [.reset, .reset]).inbox = .reset :: [.reset] := rfl

/-- No byte delivered, some, and all of them. -/
theorem witness_ResetDiscardsATransaction :
    (seeded4.setInbox [.resetDuring 0x00800001 [1, 2]]).inbox = .resetDuring 0x00800001 [1, 2] :: [] ∧
    ([1, 2] : List Byte).length ≤ cmdLen 0x00800001 ∧ ([] : List Byte).length ≤ cmdLen 0x00000002 ∧
    ([1, 2] : List Byte).length ≤ cmdLen 0x00020000 := ⟨rfl, by decide, by decide, by decide⟩

theorem witness_IdleBlockWaits : State.reset.inbox = [] := rfl

theorem witness_DecodeOfEncode :
    (Instr.seed 0xFF (zeros 65535)).wellFormed = true ∧ (Instr.nextU64 0 []).wellFormed = true ∧
    (Instr.nextF64 0xFF [1]).wellFormed = true ∧ (Instr.status 0 []).wellFormed = true :=
  ⟨(wellFormed_zeros 65535).trans (by decide), by decide, by decide, by decide⟩

theorem witness_EncodeOfDecode : decode [0x02, 0x00, 0x00, 0x00, 0x09] = .ok (.nextU64 0 [], [0x09]) := rfl

/-- One word for each clause, and the words where the clauses meet: OPC 0, 1, 4, 5 and 255. -/
theorem witness_DecodingIsByOpcodeAlone :
    ([] : List Byte).length = (0x0000FF01 : CmdWord).toNat / 2 ^ 16 ∧ (0x0000FF01 : CmdWord).toNat % 2 ^ 8 = 1 ∧
    (0x0000FF02 : CmdWord).toNat % 2 ^ 8 = 2 ∧ (0x0000FF03 : CmdWord).toNat % 2 ^ 8 = 3 ∧
    (0x0000FF04 : CmdWord).toNat % 2 ^ 8 = 4 ∧ (0x0000FF00 : CmdWord).toNat % 2 ^ 8 = 0 ∧
    4 < (0x0000FF05 : CmdWord).toNat % 2 ^ 8 ∧ 4 < (0x0000FFFF : CmdWord).toNat % 2 ^ 8 := by decide

theorem witness_LegalWordsDecode : (zeros 128).length = 128 ∧ (zeros 256).length = 256 :=
  ⟨length_zeros 128, length_zeros 256⟩

/-- One word for each row, SEED's with LEN 0. -/
theorem witness_TableRowsDecode :
    (∀ r ∈ opcodeTable, r.matches r.pattern = true ∧ ([] : List Byte).length = cmdLen r.pattern) ∧
    OpcodeRow.matches ⟨"SEED", 0x00000001, 0x0000FFFF⟩ 0x00800001 = true := by decide

theorem witness_StepRunsTheDecodedCommand :
    (seeded4.present 0x00000002 []).inbox = .command 0x00000002 [] :: [] ∧
    decodeCommand 0x00000002 [] = .ok (.nextU64 0 []) := ⟨rfl, rfl⟩

/-- A byte too many, and a byte too few. -/
theorem witness_WrongPayloadLengthHasNoMove :
    (seeded4.present 0x00000002 [1]).inbox = .command 0x00000002 [1] :: [] ∧
    ([1] : List Byte).length ≠ (0x00000002 : CmdWord).toNat / 2 ^ 16 ∧
    ([1] : List Byte).length ≠ (0x00020001 : CmdWord).toNat / 2 ^ 16 := ⟨rfl, by decide, by decide⟩

theorem witness_EarlierResponsesDoNotMatter : (nextOf (step (seeded4.present 0x00000003 []))).isSome = true := by
  decide

/-- The hypotheses, and for each arm of the code's definition a command that takes it. -/
theorem witness_FaultPriorityOrder :
    seeded4.Inv ∧ faulted4.Inv ∧ (seeded4.present 0x00010002 [0]).inbox = .command 0x00010002 [0] :: [] ∧
    ([0] : List Byte).length = cmdLen 0x00010002 ∧
    (codeAndStatus faulted4 0x00000000 []).map Prod.fst = some 0x0F ∧
    (codeAndStatus State.reset 0x00000100 []).map Prod.fst = some 3 ∧
    (codeAndStatus State.reset 0x00000101 []).map Prod.fst = some 4 ∧
    (codeAndStatus State.reset 0x00010004 [0]).map Prod.fst = some 4 ∧
    (codeAndStatus State.reset 0x00000001 []).map Prod.fst = some 1 ∧
    (codeAndStatus State.reset 0x00000003 []).map Prod.fst = some 2 ∧
    (codeAndStatus seeded4 0x00000003 []).map Prod.fst = some 0 ∧
    (codeAndStatus faulted4 0x00000004 []).map Prod.fst = some 0 :=
  ⟨seeded4_inv, faulted4_inv, rfl, by decide, by decide, by decide, by decide, by decide, by decide, by decide,
    by decide, by decide⟩

theorem witness_FaultEntryIsPrecise :
    seeded4.faulted = false ∧ (seeded4.present 0x00000005 []).inbox = .command 0x00000005 [] :: [] ∧
    ∃ t, step (seeded4.present 0x00000005 []) = .next t ∧ t.responses = [] ++ [⟨0x03, []⟩] ∧
      (0x03 : BitVec 8) ≠ 0 := ⟨rfl, rfl, _, rfl, rfl, by decide⟩

/-- The exact STATUS word, and one beside it. -/
theorem witness_FaultedBlockAnswersStatusAlone :
    faulted4.faulted = true ∧ (faulted4.present 0x00000004 []).inbox = .command 0x00000004 [] :: [] ∧
    ([] : List Byte).length = cmdLen 0x00000004 ∧ ([] : List Byte).length = cmdLen 0x00000104 ∧
    (0x00000104 : CmdWord) ≠ 0x00000004 := ⟨rfl, rfl, by decide, by decide, by decide⟩

/-- Both resets clear the fault; SEED does not. -/
theorem witness_OnlyResetClearsTheFault :
    faulted4.faulted = true ∧
    (nextOf (step (faulted4.setInbox [.reset]))).map State.faulted = some false ∧
    (nextOf (step (faulted4.setInbox [.resetDuring 0x00000002 []]))).map State.faulted = some false := by decide

theorem witness_OnlyFaultEntrySetsFaulted :
    State.reset.faulted = false ∧
    (nextOf (step (State.reset.present 0x00000002 []))).map State.faulted = some true := by decide

/-- OPC 0, 5 and 255, one of them with RSV and a payload. -/
theorem witness_IllegalOpcodeFaults :
    State.reset.faulted = false ∧ ([] : List Byte).length = cmdLen 0x00000000 ∧
    (0x00000000 : CmdWord).toNat % 2 ^ 8 = 0 ∧ 4 < (0x00000005 : CmdWord).toNat % 2 ^ 8 ∧
    4 < (0x000101FF : CmdWord).toNat % 2 ^ 8 ∧ ([9] : List Byte).length = cmdLen 0x000101FF := by decide

/-- Each command with RSV 1 or 255, and each without payload given one. -/
theorem witness_ReservedFieldFaults :
    State.reset.faulted = false ∧ (Instr.seed 1 []).rsv ≠ 0 ∧ (Instr.nextU64 0xFF []).rsv ≠ 0 ∧
    (Instr.nextF64 1 []).rsv ≠ 0 ∧ (Instr.status 0xFF []).rsv ≠ 0 ∧
    ((Instr.nextU64 0 [0]).mnemonic ≠ "SEED" ∧ (Instr.nextU64 0 [0]).payload ≠ []) ∧
    ((Instr.nextF64 0 [0]).mnemonic ≠ "SEED" ∧ (Instr.nextF64 0 [0]).payload ≠ []) ∧
    ((Instr.status 0 [0]).mnemonic ≠ "SEED" ∧ (Instr.status 0 [0]).payload ≠ []) := by decide

/-- LEN 0, one below and one above 128, and the other lane count's 256. -/
theorem witness_SeedLengthFaults :
    State.reset.faulted = false ∧ ([] : List Byte).length ≠ 32 * State.reset.cfg.n ∧
    (zeros 127).length ≠ 32 * State.reset.cfg.n ∧ (zeros 129).length ≠ 32 * State.reset.cfg.n ∧
    (zeros 256).length ≠ 32 * State.reset.cfg.n := by
  simp only [length_zeros]
  decide

theorem witness_UnseededDrawFaults :
    State.reset.seeded = false ∧ State.reset.faulted = false ∧ faulted4.seeded = false ∧ faulted4.faulted = true := by
  decide

/-- Four lanes and eight, seeded before or not. -/
theorem witness_SeedLoadsEveryLane :
    State.reset.faulted = false ∧ (zeros 128).length = 32 * State.reset.cfg.n ∧
    seeded8.faulted = false ∧ (zeros 256).length = 32 * seeded8.cfg.n := by
  simp only [length_zeros]
  decide

/-- Each arm: a faulted block, RSV 1, 127 bytes, and 128; and the two lane counts of the word. -/
theorem witness_SeedFollowsItsRule :
    faulted4.faulted = true ∧ seeded4.faulted = false ∧ (1 : BitVec 8) ≠ 0 ∧
    (zeros 127).length ≠ 32 * seeded4.cfg.n ∧ (zeros 128).length = 32 * seeded4.cfg.n ∧
    (zeros 256).length = 32 * seeded8.cfg.n ∧ seeded4.cfg.n = 4 ∧ seeded8.cfg.n ≠ 4 := by
  simp only [length_zeros]
  decide

/-- A payload that is accepted, and one that is not. -/
theorem witness_SeedChecksOnlyTheLength :
    State.reset.faulted = false ∧ (zeros 128).length = 32 * State.reset.cfg.n ∧
    (zeros 64).length ≠ 32 * State.reset.cfg.n := by
  simp only [length_zeros]
  decide

theorem witness_SeedForgetsTheEarlierState :
    mixed4.Inv ∧ State.reset.Inv ∧ mixed4.cfg = State.reset.cfg ∧ mixed4.faulted = false ∧
    State.reset.faulted = false ∧ (zeros 128).length = 32 * mixed4.cfg.n :=
  ⟨mixed4_inv, reset_inv, rfl, rfl, rfl, length_zeros 128⟩

theorem witness_SubSeedIsGatheredFromThePayload :
    State.reset.faulted = false ∧ (zeros 128).length = 32 * State.reset.cfg.n ∧ 3 < State.reset.cfg.n :=
  ⟨rfl, length_zeros 128, by decide⟩

/-- The ends of both ranges. -/
theorem witness_RotationLosesNoBit : 0 < 1 ∧ 1 < 64 ∧ 0 < 63 ∧ 63 < 64 ∧ 0 < 64 := by decide

/-- The all-zero lane is one that Advance takes to zero. -/
theorem witness_AdvanceIsABijection : advance ⟨0, 0, 0, 0⟩ = ⟨0, 0, 0, 0⟩ ∧ (0 : Word) ^^^ (0 <<< 17) = 0 := by decide

/-- Four lanes and eight, and both output variants. -/
theorem witness_NextU64DrawsEveryLane :
    seeded4.Inv ∧ seeded4.seeded = true ∧ seeded8.Inv ∧ seeded8.seeded = true ∧
    seeded4.cfg.variant = .plusPlus ∧ seeded8.cfg.variant = .plus ∧ 3 < seeded4.cfg.n ∧ 7 < seeded8.cfg.n :=
  ⟨seeded4_inv, rfl, seeded8_inv, rfl, rfl, rfl, by decide, by decide⟩

theorem witness_NextF64DrawsEveryLane :
    mixed4.Inv ∧ mixed4.seeded = true ∧ seeded8.Inv ∧ seeded8.seeded = true :=
  ⟨mixed4_inv, rfl, seeded8_inv, rfl⟩

/-- Each arm, for either draw: a faulted block, RSV 1, a payload byte, an unseeded block and a seeded one. -/
theorem witness_DrawsFollowTheirRules :
    faulted4.Inv ∧ faulted4.faulted = true ∧ State.reset.Inv ∧ State.reset.faulted = false ∧
    ((1 : BitVec 8) ≠ 0 ∧ ([0] : List Byte).length ≠ 0) ∧ State.reset.seeded = false ∧
    seeded4.Inv ∧ seeded4.faulted = false ∧ seeded4.seeded = true ∧ 3 < seeded4.cfg.n ∧
    seeded8.Inv ∧ seeded8.seeded = true :=
  ⟨faulted4_inv, rfl, reset_inv, rfl, by decide, rfl, seeded4_inv, rfl, rfl, by decide, seeded8_inv, rfl⟩

theorem witness_DrawsAreTotal :
    (seeded4.present 0x00000003 []).Inv ∧ seeded4.faulted = false ∧ seeded4.seeded = true ∧
    (seeded4.present 0x00000003 []).inbox = .command 0x00000003 [] :: [] ∧
    (seeded4.present 0x00000002 []).inbox = .command 0x00000002 [] :: [] :=
  ⟨⟨by decide, by decide, by decide, by decide⟩, rfl, rfl, rfl, rfl⟩

/-- Two blocks that agree on lane 0 and differ on lane 1. -/
theorem witness_LanesAreIndependent :
    seeded4.Inv ∧ mixed4.Inv ∧ seeded4.seeded = true ∧ mixed4.seeded = true ∧ seeded4.cfg = mixed4.cfg ∧
    0 < seeded4.cfg.n ∧ seeded4.lane 0 = mixed4.lane 0 ∧ seeded4.lane 1 ≠ mixed4.lane 1 :=
  ⟨seeded4_inv, mixed4_inv, rfl, rfl, rfl, by decide, by decide, by decide⟩

theorem witness_EqualLanesStayEqual :
    seeded4.Inv ∧ seeded4.seeded = true ∧ 0 < seeded4.cfg.n ∧ 3 < seeded4.cfg.n ∧ seeded4.lane 0 = seeded4.lane 3 :=
  ⟨seeded4_inv, rfl, by decide, by decide, by decide⟩

theorem witness_AllZeroLaneStaysZero :
    mixed4.Inv ∧ mixed4.seeded = true ∧ mixed4.lane 1 = some ⟨0, 0, 0, 0⟩ := ⟨mixed4_inv, rfl, by decide⟩

/-- A seed, one draw of each kind, and a host step left over. -/
theorem witness_LanesAreScalarStreams :
    let s := State.reset.setInbox
      (commandStep (.seed 0 (zeros 128)) :: ([DrawKind.u64, .f64].map fun k => commandStep (drawInstr k)) ++ [.reset])
    s.faulted = false ∧ (zeros 128).length = 32 * s.cfg.n ∧ 3 < s.cfg.n ∧
    s.inbox = commandStep (.seed 0 (zeros 128)) ::
      ([DrawKind.u64, .f64].map fun k => commandStep (drawInstr k)) ++ [.reset] :=
  ⟨rfl, length_zeros 128, by decide, rfl⟩

/-- k = 0 at its largest word, p = 0 and p = 52 at their ends. -/
theorem witness_ConversionBitPattern :
    0 = (0x00000000000007FF : Word).toNat / 2 ^ 11 ∧
    (1 = (0x0000000000000800 : Word).toNat / 2 ^ 11 ∧ 2 ^ 0 ≤ 1 ∧ 1 < 2 ^ (0 + 1)) ∧
    (2 ^ 53 - 1 = (0xFFFFFFFFFFFFFFFF : Word).toNat / 2 ^ 11 ∧ 2 ^ 52 ≤ 2 ^ 53 - 1 ∧ 2 ^ 53 - 1 < 2 ^ (52 + 1)) := by
  decide

/-- The words where the ranges meet: 2047, 2048, 4095 and 2^64 − 2048. -/
theorem witness_ConversionRange :
    (2047 : Word).toNat < 2 ^ 11 ∧ 2 ^ 11 ≤ (2048 : Word).toNat ∧ (4095 : Word).toNat < 2 ^ 12 ∧
    2 ^ 64 - 2 ^ 11 ≤ (0xFFFFFFFFFFFFF800 : Word).toNat ∧
    u2d 2047 = 0 ∧ u2d 2048 = 0x3CA0000000000000 ∧ u2d 4095 = 0x3CA0000000000000 ∧
    u2d 0xFFFFFFFFFFFFF800 = 0x3FEFFFFFFFFFFFFF := by decide

/-- A draw, the exact STATUS word, a malformed one, and a step of a word of no command. -/
theorem witness_BackendShowsOnlyInStatus :
    (Instr.nextU64 0 []).mnemonic ≠ "STATUS" ∧ (nextOf (exec (.nextU64 0 []) seeded4)).isSome = true ∧ 9 ≠ 10 ∧
    (nextOf (exec (.status 0 []) seeded4)).isSome = true ∧ (nextOf (exec (.status 1 []) seeded4)).isSome = true ∧
    (nextOf (exec (.status 0 [0]) faulted4)).isSome = true ∧
    (nextOf (step (seeded4.present 0x00000005 []))).isSome = true := by decide

/-- Steps that are not the exact STATUS word: an idle one, and one of another word. -/
theorem witness_BackendShowsOnlyInStatus_step :
    (∀ rest, seeded4.inbox ≠ .command 0x00000004 [] :: rest) ∧
    (∀ rest, (seeded4.present 0x00000104 []).inbox ≠ .command 0x00000004 [] :: rest) :=
  ⟨fun _ h => (nomatch h), fun _ h => absurd (HostStep.command.inj (List.cons.inj h).1).1 (by decide)⟩

/-- Each arm: a malformed form on a faulted block, one on an unfaulted block, and the exact word on both. -/
theorem witness_StatusFollowsItsRule :
    (faulted4.faulted = true ∧ (1 : BitVec 8) ≠ 0) ∧ (seeded4.faulted = false ∧ ([0] : List Byte).length ≠ 0) ∧
    ([] : List Byte).length = 0 := by decide

/-- Each kind of host step on a lane that stands at the first state of its stream: idle, the two resets, a SEED (here one
that faults), both draws and STATUS. -/
theorem witness_StepKeepsLanesInTheirStreams :
    seeded4.Inv ∧ seeded4.lane 3 = some (advanceN 0 ⟨1, 2, 3, 4⟩) ∧ (nextOf (step seeded4)).isSome = true ∧
    (nextOf (step (seeded4.setInbox [.reset]))).isSome = true ∧
    (nextOf (step (seeded4.setInbox [.resetDuring 0x00000002 []]))).isSome = true ∧
    (codeAndStatus seeded4 0x00000001 []).map Prod.fst = some 0x01 ∧
    (codeAndStatus seeded4 0x00000002 []).map Prod.fst = some 0x00 ∧
    (codeAndStatus seeded4 0x00000003 []).map Prod.fst = some 0x00 ∧
    (codeAndStatus seeded4 0x00000004 []).map Prod.fst = some 0x00 :=
  ⟨seeded4_inv, by decide, by decide, by decide, by decide, by decide, by decide, by decide, by decide⟩

/-- A SEED of 128 bytes on that block completes. -/
theorem witness_StepKeepsLanesInTheirStreams_seed :
    (codeAndStatus seeded4 0x00800001 (zeros 128)).map Prod.fst = some 0x00 := by decide +kernel

/-- The empty one and both kinds of next step: a command that completes and one that faults. -/
theorem witness_StepKeepsTheInvariant :
    seeded4.Inv ∧ (nextOf (step seeded4)).isSome = true ∧
    (seeded4.present 0x00000002 []).Inv ∧ (nextOf (step (seeded4.present 0x00000002 []))).isSome = true ∧
    (seeded4.present 0x00000000 []).Inv ∧ (nextOf (step (seeded4.present 0x00000000 []))).isSome = true :=
  ⟨seeded4_inv, by decide, ⟨by decide, by decide, by decide, by decide⟩, by decide,
    ⟨by decide, by decide, by decide, by decide⟩, by decide⟩

/-- A run that goes on and a run that has no move. -/
theorem witness_NoRunStopsInAFault :
    State.reset.Inv ∧ (State.reset.present 0x00000002 [0]).Inv ∧
    step (State.reset.present 0x00000002 [0]) = .refused .payloadLength :=
  ⟨reset_inv, ⟨by decide, by decide, by decide, by decide⟩, rfl⟩

/-- A response of each code but SEED_LENGTH's and RESERVED_FIELD's. -/
theorem witness_ResponseCodesAndLengths :
    seeded4.Inv ∧ (seeded4.present 0x00000002 []).inbox = .command 0x00000002 [] :: [] ∧
    ([] : List Byte).length = cmdLen 0x00000002 ∧
    (answer (step (seeded4.present 0x00000002 []))).map (fun r => (r.code, r.data.length)) = some (0x00, 32) ∧
    (answer (step (faulted4.present 0x00000002 []))).map (fun r => (r.code, r.data.length)) = some (0x0F, 0) ∧
    (answer (step (State.reset.present 0x00000002 []))).map (fun r => (r.code, r.data.length)) = some (0x02, 0) :=
  ⟨seeded4_inv, rfl, by decide, by decide, by decide, by decide⟩

/-- A draw and STATUS that complete, and a command that is rejected. -/
theorem witness_CommandFrame :
    (answer (exec (.nextU64 0 []) seeded4)).map Response.code = some 0x00 ∧
    (answer (exec (.status 0 []) seeded4)).map Response.code = some 0x00 ∧
    (answer (exec (.nextF64 0 []) faulted4)).map Response.code = some 0x0F := by decide

theorem witness_ConfigurationIsConstant : ∃ t, Sys2Proof.core.run 1 (seeded4.present 0x00000002 []) = .next t :=
  ⟨_, rfl⟩

/-- A statement of each kind. -/
theorem witness_AssembledStatementsAreLegal :
    (∃ p, assemble Config.reference (.seed (List.replicate 16 (2 ^ 64 - 1))) = .ok p) ∧
    (∃ p, assemble Config.reference (.seedLanes (List.replicate 4 [1, 2, 3, 4])) = .ok p) ∧
    assemble Config.reference .status = .ok (0x00000004, []) ∧
    assemble Config.reference (.raw 0x00000104 []) = .ok (0x00000104, []) := ⟨⟨_, rfl⟩, ⟨_, rfl⟩, rfl, rfl⟩

/-- Each clause: a tuple too few, a tuple of three words, and four tuples with the largest word. -/
theorem witness_SeedLanesTransposes :
    [[1, 2, 3, 4]].length ≠ Config.reference.n ∧
    (let ts := [[1, 2, 3], [1, 2, 3, 4], [1, 2, 3, 4], [1, 2, 3, 4]]
     ts.length = Config.reference.n ∧ ∃ t ∈ ts, t.length ≠ 4) ∧
    (let ts := List.replicate 4 [1, 2, 3, 2 ^ 64 - 1]
     ts.length = Config.reference.n ∧ ∀ t ∈ ts, t.length = 4 ∧ ∀ w ∈ t, w < 2 ^ 64) := by decide

end Sys2Proof.Tests
end

/-! Proofs about the scope of the block (00_scope.md): what a command can do and what it leaves unchanged, the
configuration along a run, the backend, and the rotation of R11. -/

namespace Sys2Proof.Machine

/-! ### What a command can do, in any state -/

/-- Everything a draw can do, the invariant not assumed. -/
theorem draw_next {convert : Word → Word} {rsv : BitVec 8} {payload : List Byte} {s t : State}
    (h : draw convert rsv payload s = .next t) :
    (s.faulted = true ∧ t = s.reject) ∨
    (s.faulted = false ∧ ∃ c, t = s.raise c) ∨
    (s.faulted = false ∧ s.seeded = true ∧ ∃ ls, s.lanes = some ls ∧ t = s.drawLanes convert ls) := by
  rcases guarded_cases (bareFieldFault rsv payload.length) (drawChecked convert) s with
    ⟨hf, e⟩ | ⟨hf, c, -, e⟩ | ⟨hf, -, e⟩ <;> rw [draw, e] at h
  · cases h
    exact .inl ⟨hf, rfl⟩
  · cases h
    exact .inr (.inl ⟨hf, c, rfl⟩)
  · unfold drawChecked at h
    split at h
    · cases h
      exact .inr (.inl ⟨hf, .notSeeded, rfl⟩)
    · rename_i hs
      split at h
      · rename_i ls hls
        cases h
        exact .inr (.inr ⟨hf, by simpa using hs, ls, hls, rfl⟩)
      · cases h

/-- What a command that has a next state left of `s`: a rejection, a fault entry, or the effect of its own row. -/
inductive ExecEffect (i : Instr) (s : State) : State → Prop
  | rejected (hf : s.faulted = true) : ExecEffect i s s.reject
  | faulted (hf : s.faulted = false) (c : FaultCause) : ExecEffect i s (s.raise c)
  | seeded (hf : s.faulted = false) (payload : List Byte) (hi : i = .seed 0 payload) :
      ExecEffect i s ((s.loadSeed payload).respond codeOk [])
  | drawn (hf : s.faulted = false) (hs : s.seeded = true) (convert : Word → Word) (ls : List Lane)
      (hls : s.lanes = some ls) (hi : i.mnemonic = "NEXT.U64" ∨ i.mnemonic = "NEXT.F64") :
      ExecEffect i s (s.drawLanes convert ls)
  | status (hi : i = .status 0 []) : ExecEffect i s (s.respond codeOk (le32bytes s.statusWord))

/-- A draw's effect is one of them. -/
theorem execEffect_of_draw {i : Instr} {convert : Word → Word} {rsv : BitVec 8} {payload : List Byte} {s t : State}
    (hi : i.mnemonic = "NEXT.U64" ∨ i.mnemonic = "NEXT.F64") (h : draw convert rsv payload s = .next t) :
    ExecEffect i s t := by
  rcases draw_next h with ⟨hf, rfl⟩ | ⟨hf, c, rfl⟩ | ⟨hf, hs, ls, hls, rfl⟩
  · exact .rejected hf
  · exact .faulted hf c
  · exact .drawn hf hs convert ls hls hi

/-- Everything a command can do. -/
theorem exec_effect {i : Instr} {s t : State} (h : exec i s = .next t) : ExecEffect i s t := by
  cases i with
  | seed rsv payload =>
    rcases execSeed_cases rsv payload s with ⟨hf, e⟩ | ⟨hf, -, e⟩ | ⟨hf, -, -, e⟩ | ⟨hf, rfl, -, e⟩ <;>
      rw [exec, e] at h <;> cases h
    · exact .rejected hf
    · exact .faulted hf _
    · exact .faulted hf _
    · exact .seeded hf payload rfl
  | nextU64 rsv payload => exact execEffect_of_draw (.inl rfl) h
  | nextF64 rsv payload => exact execEffect_of_draw (.inr rfl) h
  | status rsv payload =>
    rcases execStatus_cases rsv payload s with ⟨hf, -, e⟩ | ⟨hf, -, e⟩ | ⟨rfl, hl, e⟩ <;>
      rw [exec, e] at h <;> cases h
    · exact .rejected hf
    · exact .faulted hf _
    · rw [List.length_eq_zero_iff.1 hl]
      exact .status rfl

/-- A fault's response code is neither OK nor REJECTED_FAULTED (20_memory.md R48). -/
theorem codeOfFault_ne (c : FaultCause) : codeOfFault c ≠ 0x00 ∧ codeOfFault c ≠ 0x0F := by
  cases c <;> decide

theorem codeOk_ne_rejected : codeOk ≠ 0x0F := by decide

/-- Settles O51, by the effects a command can have. -/
theorem commandFrame : Obligations.CommandFrame := by
  intro i s t h
  cases exec_effect h with
  | rejected => exact ⟨rfl, rfl, _, rfl, fun _ => ⟨rfl, rfl⟩, fun _ _ => rfl, fun _ => rfl⟩
  | faulted _ c =>
    obtain ⟨hok, hrej⟩ := codeOfFault_ne c
    exact ⟨rfl, rfl, _, rfl, (absurd · hok), (absurd · hok), fun hr => hr.elim (absurd ·.1 hok) (absurd · hrej)⟩
  | seeded _ payload hi =>
    subst hi
    refine ⟨rfl, rfl, _, rfl, fun _ => ⟨rfl, rfl⟩, fun _ hne => absurd rfl hne, ?_⟩
    rintro (⟨-, hm⟩ | hc)
    · exact absurd hm (by simp [Instr.mnemonic])
    · exact absurd hc codeOk_ne_rejected
  | drawn _ _ convert ls _ hi =>
    refine ⟨rfl, rfl, _, rfl, fun _ => ⟨rfl, rfl⟩, fun _ _ => rfl, ?_⟩
    rintro (⟨-, hm⟩ | hc)
    · rw [hm] at hi
      exact absurd hi (by decide)
    · exact absurd hc codeOk_ne_rejected
  | status => exact ⟨rfl, rfl, _, rfl, fun _ => ⟨rfl, rfl⟩, fun _ _ => rfl, fun _ => rfl⟩

/-! ### The configuration along a run -/

/-- What every step keeps, every run keeps. -/
theorem run_keeps {P : State → Prop} (hstep : ∀ {s t : State}, step s = .next t → P s → P t) {n : Nat} {s t : State}
    (h : Sys2Proof.core.run n s = .next t) (hs : P s) : P t := by
  induction n generalizing s with
  | zero =>
    rw [run_zero] at h
    cases h
    exact hs
  | succ n ih =>
    cases hx : step s with
    | next u => exact ih (run_succ_next n hx ▸ h) (hstep hx hs)
    | fault e => rw [run_succ_fault n hx] at h; cases h
    | refused e => rw [run_succ_refused n hx] at h; cases h

/-- No host step changes the configuration. -/
theorem hostStep_cfg {x : HostStep} {s t : State} (h : hostStep x s = .next t) : t.cfg = s.cfg := by
  cases x with
  | command cmd payload => cases transact_effect h <;> rfl
  | reset => cases h; rfl
  | resetDuring cmd delivered =>
    simp only [hostStep, resetInTransaction] at h
    split at h <;> cases h
    rfl

/-- No step changes the configuration. -/
theorem step_cfg {s t : State} (h : step s = .next t) : t.cfg = s.cfg := by
  cases hx : s.inbox with
  | nil => rw [step_idle hx] at h; cases h; rfl
  | cons x rest =>
    rw [step_cons hx] at h
    exact (hostStep_cfg h).trans (s.setInbox_cfg rest)

/-- Settles O52, by the invariant that the configuration is the first state's. -/
theorem configurationIsConstant : Obligations.ConfigurationIsConstant := fun s _ _ h =>
  run_keeps (P := fun u => u.cfg = s.cfg) (fun hx hu => (step_cfg hx).trans hu) h rfl

/-! ### The rotation -/

/-- Settles O29, by the library's rotation: bits below k come from the top of the word, the others from k places
below. -/
theorem rotationLosesNoBit : Obligations.RotationLosesNoBit := by
  intro a k i _ hk hi
  rw [rotl_eq_rotateLeft a k hk, BitVec.getLsbD_rotateLeft, Nat.mod_eq_of_lt hk]
  by_cases hik : i < k
  · have hmod : (i + 64 - k) % 64 = 64 - k + i := by omega
    simp [hik, hmod]
  · have hmod : (i + 64 - k) % 64 = i - k := by omega
    simp [hik, hmod, hi]

/-! ### The bits of the STATUS word -/

/-- A one-bit field at bit n. -/
theorem flagField_shiftLeft_getLsbD (p : Bool) (n k : Nat) (hn : n < 32) :
    (flagField p <<< n).getLsbD k = (decide (k = n) && p) := by
  have hbit (m : Nat) (hm : m < 32) : (flagField p).getLsbD m = (decide (m = 0) && p) := by
    simp [flagField, BitVec.getLsbD_ofBool, hm]
  rw [BitVec.getLsbD_shiftLeft]
  by_cases hk : k < 32
  · rw [hbit _ (by omega)]
    by_cases hkn : k < n
    · simp [hkn, Nat.ne_of_lt hkn]
    · simp [hk, hkn, show k - n = 0 ↔ k = n by omega]
  · simp [hk, show k ≠ n by omega]

theorem lanesField_eq (l : LaneCount) : lanesField l = flagField (decide (l = .eight)) := by
  cases l <;> rfl

theorem variantField_eq (v : Variant) : variantField v = flagField (decide (v = .plusPlus)) := by
  cases v <;> rfl

theorem backendField_eq (b : Backend) : backendField b = flagField (decide (b = .hwSpecific)) := by
  cases b <;> rfl

/-- Every bit of the STATUS word (10_state.md R28). -/
theorem State.statusWord_getLsbD (s : State) (k : Nat) :
    s.statusWord.getLsbD k =
      ((decide (k = 0) && s.seeded) || (decide (k = 1) && s.faulted) ||
        (decide (4 ≤ k) && s.faultCode.getLsbD (k - 4)) || (decide (k = 8) && decide (s.cfg.lanes = .eight)) ||
        (decide (k = 9) && decide (s.cfg.variant = .plusPlus)) ||
        (decide (k = 10) && decide (s.cfg.backend = .hwSpecific)) || decide (k = 24)) := by
  have hseeded := flagField_shiftLeft_getLsbD s.seeded 0 k (by decide)
  rw [BitVec.shiftLeft_zero] at hseeded
  have hcode : (s.faultCode.setWidth 32 <<< 4).getLsbD k = (decide (4 ≤ k) && s.faultCode.getLsbD (k - 4)) := by
    rw [BitVec.getLsbD_shiftLeft, BitVec.getLsbD_setWidth]
    by_cases hk : k < 8
    · simp [show k < 32 by omega, show k - 4 < 32 by omega, ← decide_not]
    · simp [BitVec.getLsbD_of_ge s.faultCode (k - 4) (by omega)]
  have hifver := flagField_shiftLeft_getLsbD true 24 k (by decide)
  rw [Bool.and_true] at hifver
  simp only [State.statusWord, BitVec.getLsbD_or, lanesField_eq, variantField_eq, backendField_eq,
    show (0x01 : BitVec 32) = flagField true from rfl, hseeded, hcode, hifver,
    flagField_shiftLeft_getLsbD _ 1 k (by decide), flagField_shiftLeft_getLsbD _ 8 k (by decide),
    flagField_shiftLeft_getLsbD _ 9 k (by decide), flagField_shiftLeft_getLsbD _ 10 k (by decide)]

/-! ### STATUS, its exact form and the others -/

/-- The exact STATUS answers the STATUS word in any state (43_status.md R121). -/
theorem execStatus_exact (s : State) :
    execStatus 0 [] s = .next (s.respond codeOk (le32bytes s.statusWord)) := by
  simp [execStatus, bareFieldFault]

/-- Any other form of STATUS is a guarded command that faults: its body is never reached. -/
theorem execStatus_malformed {rsv : BitVec 8} {payload : List Byte} (h : ¬(rsv = 0 ∧ payload = [])) (s : State) :
    execStatus rsv payload s = guarded (some .reservedField) .next s := by
  rcases execStatus_cases rsv payload s with ⟨hf, -, e⟩ | ⟨hf, -, e⟩ | ⟨hr, hl, -⟩
  · simp [e, guarded, hf]
  · simp [e, guarded, hf]
  · exact absurd ⟨hr, List.length_eq_zero_iff.1 hl⟩ h

/-- A word that decodes to the exact STATUS is 0x00000004 (30_encoding.md R62). -/
theorem cmd_of_decodeCommand_status {cmd : CmdWord} {payload : List Byte}
    (h : decodeCommand cmd payload = .ok (.status 0 [])) : cmd = 0x00000004 ∧ payload = [] := by
  obtain ⟨hlen, hopc, hrsv, hpay⟩ := decodeCommand_ok h
  subst hpay
  have hpack := packCommand_fields cmd
  rw [← hopc, ← hrsv, ← hlen] at hpack
  exact ⟨hpack.symm.trans (by decide), rfl⟩

/-! ### The backend -/

/-- A change every operation carries through is carried through a command, unless it shows in an answered STATUS
word. -/
theorem Carries.exec {f : State → State} (hf : Carries f) (i : Instr) (s : State)
    (hi : i ≠ .status 0 []) : Machine.exec i (f s) = mapNext f (Machine.exec i s) := by
  cases i with
  | seed rsv payload => exact hf.execSeed rsv payload s
  | nextU64 rsv payload => exact hf.drawCommand id rsv payload s
  | nextF64 rsv payload => exact hf.drawCommand u2d rsv payload s
  | status rsv payload =>
    have hm : ¬(rsv = 0 ∧ payload = []) := by
      rintro ⟨rfl, rfl⟩
      exact hi rfl
    rw [Machine.exec, Machine.exec, execStatus_malformed hm, execStatus_malformed hm]
    exact hf.guarded _ s rfl

/-- Every operation carries a change of the backend through: none of them reads it. -/
theorem carries_withBackend (b : Backend) : Carries (State.withBackend · b) where
  faulted _ := rfl
  seeded _ := rfl
  lanes _ := rfl
  count _ := rfl
  respond _ _ _ := rfl
  raise _ _ := rfl
  draw _ _ _ := rfl
  load _ _ := rfl

/-- Every command but the exact STATUS does the same in a build of another backend. -/
theorem exec_withBackend {i : Instr} {s t : State} (b : Backend) (hi : i ≠ .status 0 []) (h : exec i s = .next t) :
    exec i (s.withBackend b) = .next (t.withBackend b) := by
  rw [(carries_withBackend b).exec i s hi, h]
  rfl

/-- So does every transaction but the exact STATUS word. -/
theorem transact_withBackend {cmd : CmdWord} {payload : List Byte} {s t : State} (b : Backend)
    (hc : ¬(cmd = 0x00000004 ∧ payload = [])) (h : transact cmd payload s = .next t) :
    transact cmd payload (s.withBackend b) = .next (t.withBackend b) := by
  unfold transact at h ⊢
  cases hd : decodeCommand cmd payload with
  | ok i =>
    rw [hd] at h
    refine exec_withBackend b ?_ h
    rintro rfl
    exact hc (cmd_of_decodeCommand_status hd)
  | error e =>
    rw [hd] at h
    cases e with
    | illegalOpcode =>
      have hs := (carries_withBackend b).illegalCommand s
      rwa [show illegalCommand s = .next t from h] at hs
    | payloadLength => cases h
    | truncated => cases h

/-- And every host step but the exact STATUS word. -/
theorem hostStep_withBackend {x : HostStep} {s t : State} (b : Backend) (hx : x ≠ .command 0x00000004 [])
    (h : hostStep x s = .next t) : hostStep x (s.withBackend b) = .next (t.withBackend b) := by
  cases x with
  | command cmd payload =>
    refine transact_withBackend b ?_ h
    rintro ⟨rfl, rfl⟩
    exact hx rfl
  | reset => cases h; rfl
  | resetDuring cmd delivered =>
    simp only [hostStep, resetInTransaction] at h ⊢
    split at h <;> cases h
    rename_i hl
    exact if_neg hl

theorem step_withBackend {s t : State} (b : Backend) (hs : ∀ rest, s.inbox ≠ .command 0x00000004 [] :: rest)
    (h : step s = .next t) : step (s.withBackend b) = .next (t.withBackend b) := by
  cases hx : s.inbox with
  | nil =>
    rw [step_idle hx] at h
    cases h
    exact step_idle hx
  | cons x rest =>
    rw [step_cons (s := s.withBackend b) hx]
    refine hostStep_withBackend b ?_ (step_cons hx ▸ h)
    rintro rfl
    exact hs rest hx

/-- Settles O43: the operations carry the change of backend through, and of the STATUS word's bits only bit 10 reads
it. -/
theorem backendShowsOnlyInStatus : Obligations.BackendShowsOnlyInStatus := by
  refine ⟨fun i s t b hi h => ?_, fun s t b hs h => step_withBackend b hs h, fun s b k hk => ?_, fun s b => ?_,
    fun s t b rsv payload h => ?_⟩
  · refine exec_withBackend b ?_ h
    rintro rfl
    exact hi rfl
  · simp [State.statusWord_getLsbD, State.withBackend, hk]
  · rw [State.statusWord_getLsbD]
    simp [BitVec.getLsbD_of_ge]
    rfl
  · by_cases hm : rsv = 0 ∧ payload = []
    · obtain ⟨rfl, rfl⟩ := hm
      rw [exec, execStatus_exact] at h
      cases h
      exact ⟨_, _, _, execStatus_exact (s.withBackend b), rfl, rfl, rfl, rfl, rfl, rfl⟩
    · have h' : exec (.status rsv payload) (s.withBackend b) = .next (t.withBackend b) :=
        exec_withBackend b (by simpa using hm) h
      obtain ⟨-, -, r, hr, -⟩ := commandFrame _ s t h
      exact ⟨_, r, r, h', hr, hr, rfl, rfl, by rw [if_neg hm]⟩

end Sys2Proof.Machine

/-! Proofs about the block's state (10_state.md): what a step can do, the invariant, the place of a lane in its scalar
stream, and the STATUS word. -/

namespace Sys2Proof.Machine

/-! ### What a step can do -/

/-- What a step that has a next state left of `s`: nothing where no host step was to come, else the effect of the host
step it took. -/
inductive StepEffect (s : State) : State → Prop
  | idle (hin : s.inbox = []) : StepEffect s s
  | transaction {cmd : CmdWord} {payload : List Byte} {rest : List HostStep} {t : State}
      (hin : s.inbox = .command cmd payload :: rest) (hlen : payload.length = cmdLen cmd)
      (heff : TransactEffect cmd payload (s.setInbox rest) t) : StepEffect s t
  | reset {rest : List HostStep} (hin : s.inbox = .reset :: rest) : StepEffect s (s.setInbox rest).resetBlock
  | resetDuring {cmd : CmdWord} {delivered : List Byte} {rest : List HostStep}
      (hin : s.inbox = .resetDuring cmd delivered :: rest) : StepEffect s (s.setInbox rest).resetBlock

/-- Everything a step can do, in any state. -/
theorem step_effect {s t : State} (h : step s = .next t) : StepEffect s t := by
  cases hin : s.inbox with
  | nil =>
    rw [step_idle hin] at h
    cases h
    exact .idle hin
  | cons x rest =>
    rw [step_cons hin] at h
    cases x with
    | command cmd payload => exact .transaction hin (length_of_transact_next h) (transact_effect h)
    | reset =>
      cases h
      exact .reset hin
    | resetDuring cmd delivered =>
      simp only [hostStep, resetInTransaction] at h
      split at h <;> cases h
      exact .resetDuring hin

/-! ### The invariant -/

/-- A transaction keeps the invariant. -/
theorem TransactEffect.inv {cmd : CmdWord} {payload : List Byte} {s t : State}
    (heff : TransactEffect cmd payload s t) (hi : s.Inv) : t.Inv := by
  cases heff with
  | rejected => exact hi.reject
  | illegalOpcode | reservedField | seedLength | notSeeded => exact s.raise_inv _
  | seeded hf => exact (hi.loadSeed hf payload).respond _ _
  | drawn convert ls _ hls _ hs => exact hi.drawLanes hs convert ls (State.lanes_length hls)
  | status => exact hi.respond _ _

/-- Settles O48, by the effects a step can have. -/
theorem stepKeepsTheInvariant : Obligations.StepKeepsTheInvariant := by
  intro s t hi h
  cases step_effect h with
  | idle => exact hi
  | transaction _ _ heff => exact heff.inv (hi.setInbox _)
  | reset | resetDuring => exact State.resetBlock_inv _

/-- A reset changes nothing right after reset, so it is the reset that establishes the invariant. -/
theorem State.resetOf_inv (c : Config) : (State.resetOf c).Inv := (State.resetOf c).resetBlock_inv

/-- Settles O4: every build's reset state is one a reset leaves. -/
theorem resetStateMeetsInvariant : Obligations.ResetStateMeetsInvariant :=
  ⟨fun c => ⟨State.resetOf_inv c, rfl, rfl, rfl, rfl, rfl⟩, State.resetOf_inv Config.reference, rfl⟩

/-! ### Fault entry -/

/-- A transaction that sets FAULTED took a fault entry. -/
theorem TransactEffect.faultEntered {cmd : CmdWord} {payload : List Byte} {s t : State}
    (heff : TransactEffect cmd payload s t) (hs : s.faulted = false) (ht : t.faulted = true) :
    ∃ code, s.FaultEntered t code := by
  have hkept (h : t.faulted = s.faulted) : False := by simp [h, hs] at ht
  cases heff with
  | illegalOpcode | reservedField | seedLength | notSeeded => exact ⟨_, s.raise_faultEntered _⟩
  | rejected | seeded | drawn | status => exact (hkept rfl).elim

/-- Settles O18: of the effects a step can have, a fault entry alone sets FAULTED. -/
theorem onlyFaultEntrySetsFaulted : Obligations.OnlyFaultEntrySetsFaulted := by
  intro s t hs h ht
  cases step_effect h with
  | idle => exact absurd (hs.symm.trans ht) (by decide)
  | transaction hin _ heff =>
    obtain ⟨code, hentry⟩ := heff.faultEntered hs ht
    exact ⟨_, _, _, code, hin, hentry⟩
  | reset | resetDuring => cases ht

/-! ### Earlier responses -/

/-- A change every operation carries through, and the STATUS word does not show, is carried through a transaction. -/
theorem Carries.transact {f : State → State} (hf : Carries f) (hw : ∀ s, (f s).statusWord = s.statusWord)
    (cmd : CmdWord) (payload : List Byte) (s : State) :
    Machine.transact cmd payload (f s) = mapNext f (Machine.transact cmd payload s) := by
  unfold Machine.transact
  cases decodeCommand cmd payload with
  | ok i =>
    cases i with
    | seed rsv payload => exact hf.execSeed rsv payload s
    | nextU64 rsv payload => exact hf.drawCommand id rsv payload s
    | nextF64 rsv payload => exact hf.drawCommand u2d rsv payload s
    | status rsv payload => exact hf.execStatus rsv payload s (hw s)
  | error e =>
    cases e with
    | illegalOpcode => exact hf.illegalCommand s
    | payloadLength | truncated => rfl

/-- And through a host step, where a reset carries it through too. -/
theorem Carries.hostStep {f : State → State} (hf : Carries f) (hw : ∀ s, (f s).statusWord = s.statusWord)
    (hr : ∀ s, (f s).resetBlock = f s.resetBlock) (x : HostStep) (s : State) :
    Machine.hostStep x (f s) = mapNext f (Machine.hostStep x s) := by
  cases x with
  | command cmd payload => exact hf.transact hw cmd payload s
  | reset => exact congrArg Host.Outcome.next (hr s)
  | resetDuring cmd delivered =>
    simp only [Machine.hostStep, resetInTransaction, hr]
    split <;> rfl

/-- No host step changes the host steps still to come. -/
theorem hostStep_inbox {x : HostStep} {s t : State} (h : hostStep x s = .next t) : t.inbox = s.inbox := by
  cases x with
  | command cmd payload => cases transact_effect h <;> rfl
  | reset => cases h; rfl
  | resetDuring cmd delivered =>
    simp only [hostStep, resetInTransaction] at h
    split at h <;> cases h
    rfl

/-- Settles O13: every operation carries a change of the earlier responses through. -/
theorem earlierResponsesDoNotMatter : Obligations.EarlierResponsesDoNotMatter := by
  intro s t earlier h
  cases hin : s.inbox with
  | nil =>
    rw [step_idle hin] at h
    cases h
    rw [← hin]
    exact step_idle (s := { s with responses := earlier ++ s.responses }) hin
  | cons x rest =>
    rw [step_cons hin] at h
    have hrest : t.inbox = rest := hostStep_inbox h
    subst hrest
    have hcarried := (carries_onPort t.inbox earlier).hostStep (fun _ => rfl) (fun _ => rfl) x (s.setInbox t.inbox)
    rw [h] at hcarried
    exact hcarried

/-! ### One lane under the operations -/

/-- A lane that holds a value is one of the P_N. -/
theorem State.lt_of_lane_eq_some {s : State} {j : Nat} {l : Lane} (h : s.lane j = some l) : j < s.cfg.n := by
  obtain ⟨ls, hls, hj⟩ := Option.bind_eq_some_iff.1 h
  exact State.lanes_length hls ▸ (List.getElem?_eq_some_iff.1 hj).1

/-- A seeded block is not faulted (R136). -/
theorem State.Inv.unfaulted_of_seeded {s : State} (hi : s.Inv) (hs : s.seeded = true) : s.faulted = false :=
  Bool.eq_false_iff.2 fun hf => by simp [hi.faulted_unseeded hf] at hs

/-- A block of which a lane holds a value is seeded (R23). -/
theorem State.Inv.seeded_of_lane {s : State} (hi : s.Inv) {j : Nat} {l : Lane} (h : s.lane j = some l) :
    s.seeded = true := by
  by_contra hs
  have hnone := hi.lanes_iff_seeded
  rw [if_neg hs] at hnone
  simp only [State.noLanes, Bool.and_eq_true, Option.isNone_iff_eq_none] at hnone
  simp [State.lane, State.lanes, hnone] at h

@[simp] theorem State.setInbox_lane (s : State) (hs : List HostStep) (j : Nat) :
    (s.setInbox hs).lane j = s.lane j := rfl

@[simp] theorem State.respond_lane (s : State) (code : BitVec 8) (data : List Byte) (j : Nat) :
    (s.respond code data).lane j = s.lane j := rfl

/-- Fault entry leaves no lane a value. -/
@[simp] theorem State.raise_lane (s : State) (c : FaultCause) (j : Nat) : (s.raise c).lane j = none := rfl

/-- A draw advances each lane once, whatever the others hold (R96). -/
theorem State.drawLanes_lane {s : State} {ls : List Lane} (h : s.lanes = some ls) (convert : Word → Word) (j : Nat) :
    (s.drawLanes convert ls).lane j = (s.lane j).map advance := by
  rw [State.lane_eq (s.drawLanes_lanes convert ls (State.lanes_length h)), State.lane_eq h, List.getElem?_map]

/-- Word j of a vector made from lanes is made from lane j. -/
theorem responseWord_vectorBytes_map {ls : List Lane} {j : Nat} {l : Lane} (h : ls[j]? = some l)
    (word : Lane → Word) :
    responseWord (vectorBytes (ls.map word)) j = word l := by
  obtain ⟨hj, rfl⟩ := List.getElem?_eq_some_iff.1 h
  rw [responseWord, le64_slice_vectorBytes _ j (by simpa using hj), List.getElem_map]

/-- The lane of a sub-seed written as its four words' bytes (R83). -/
theorem laneOfSubSeed_append {a b c d : List Byte} (ha : a.length = 8) (hb : b.length = 8) (hc : c.length = 8)
    (hd : d.length = 8) : laneOfSubSeed (a ++ b ++ c ++ d) = ⟨le64 a, le64 b, le64 c, le64 d⟩ := by
  simp [laneOfSubSeed, slice, List.drop_append, List.drop_eq_nil_of_le, List.take_of_length_le, ha, hb, hc, hd]

/-- SEED gives a lane the state of its sub-seed (R83). -/
theorem State.loadSeed_lane {s : State} {payload : List Byte} {j : Nat} (hj : j < s.cfg.n)
    (hl : payload.length = 32 * s.cfg.n) :
    (s.loadSeed payload).lane j = some (laneOfSubSeed (subSeedIn s.cfg.n payload j)) := by
  have hword (k : Nat) (hk : k < 4) : (slice payload (8 * (k * s.cfg.n + j)) 8).length = 8 := by
    apply length_slice
    interval_cases k <;> omega
  have h0 := hword 0 (by decide)
  have h1 := hword 1 (by decide)
  simp only [Nat.zero_mul, Nat.one_mul, Nat.zero_add] at h0 h1
  rw [State.lane_eq (s.loadSeed_lanes payload), subSeedIn,
    laneOfSubSeed_append h0 h1 (hword 2 (by decide)) (hword 3 (by decide))]
  simp [seedLanes, seedWord, hj]

/-! ### Draws of a seeded block -/

/-- A well-formed draw of a seeded block draws every lane. -/
theorem exec_drawInstr {s : State} (hi : s.Inv) (hs : s.seeded = true) (k : DrawKind) :
    ∃ ls, s.lanes = some ls ∧ exec (drawInstr k) s = .next (s.drawLanes (drawConvert k) ls) := by
  rcases draw_cases (drawConvert k) 0 [] s hi with
    ⟨hf, -⟩ | ⟨-, hx, -⟩ | ⟨-, -, -, hn, -⟩ | ⟨-, -, -, -, ls, hls, -, hdraw⟩
  · simp [hi.unfaulted_of_seeded hs] at hf
  · simp at hx
  · simp [hs] at hn
  · cases k <;> exact ⟨ls, hls, hdraw⟩

/-- Settles O36: either draw's word and next state for lane j are functions of lane j. -/
theorem lanesAreIndependent : Obligations.LanesAreIndependent := by
  intro s s' k j hi hi' hs hs' hcfg hj hlane
  obtain ⟨ls, hls, hexec⟩ := exec_drawInstr hi hs k
  obtain ⟨ls', hls', hexec'⟩ := exec_drawInstr hi' hs' k
  rw [← State.lanes_length hls] at hj
  have hl : ls[j]? = some ls[j] := List.getElem?_eq_getElem hj
  have hl' : ls'[j]? = some ls[j] := by rw [← State.lane_eq hls', ← hlane, State.lane_eq hls, hl]
  refine ⟨_, _, _, _, hexec, hexec', rfl, rfl, ?_, ?_⟩
  · rw [responseWord_vectorBytes_map hl, responseWord_vectorBytes_map hl', hcfg]
  · rw [State.drawLanes_lane hls, State.drawLanes_lane hls', hlane]

/-! ### A lane's place in its scalar stream -/

/-- Settles O47, by the effects a step can have. A block with a lane is seeded, so it is not faulted and rejects
nothing. -/
theorem stepKeepsLanesInTheirStreams : Obligations.StepKeepsLanesInTheirStreams := by
  intro s t j k l hi hj h
  have hs := hi.seeded_of_lane hj
  cases step_effect h with
  | idle hin => simpa only [hin] using hj
  | reset hin | resetDuring hin =>
    simp only [hin]
    rfl
  | @transaction cmd payload rest _ hin hlen heff =>
    simp only [hin]
    have hok : ¬codeOk ≠ 0x00 := not_not.2 rfl
    cases heff with
    | rejected hf => exact absurd (hf.symm.trans (hi.unfaulted_of_seeded hs)) (by decide)
    | illegalOpcode | reservedField | seedLength | notSeeded =>
      exact ⟨_, rfl, by rw [if_pos (codeOfFault_ne _).1, State.raise_lane]⟩
    | seeded _ ho _ hl =>
      rw [← cmdLen_eq, ← hlen] at hl
      refine ⟨_, rfl, ?_⟩
      rw [if_neg hok, if_pos ho]
      exact State.loadSeed_lane (s := s) (State.lt_of_lane_eq_some hj) hl
    | drawn convert ls hconv hls _ _ ho =>
      have hl : ls[j]? = some (advanceN k l) := by rw [← hj, ← State.lane_eq hls, State.setInbox_lane]
      have hnext : ((s.setInbox rest).drawLanes convert ls).lane j = some (advanceN (k + 1) l) := by
        rw [State.drawLanes_lane hls, State.setInbox_lane, hj, Option.map_some, advanceN_succ, advanceN_advance]
      refine ⟨_, rfl, ?_⟩
      rw [if_neg hok, if_neg (by omega), responseWord_vectorBytes_map hl, hconv]
      split_ifs with h2 h3
      · exact ⟨hnext, rfl⟩
      · exact ⟨hnext, rfl⟩
      · omega
    | status hc =>
      subst hc
      exact ⟨_, rfl, by simpa [codeOk] using hj⟩

/-! ### The STATUS word -/

theorem Config.n_eq_eight_iff (c : Config) : c.n = 8 ↔ c.lanes = .eight := by
  cases h : c.lanes <;> simp [Config.n, LaneCount.toNat, h]

/-- The sum of a word's four bytes at their places is the word. -/
theorem sum_le32bytes (w : BitVec 32) :
    ∑ m ∈ Finset.range 4, ((le32bytes w).getD m 0).toNat * 2 ^ (8 * m) = w.toNat := by
  have hsum := leNat_eq_sum (le32bytes w)
  rw [length_le32bytes, le32bytes, leNat_leBytes, Nat.mod_eq_of_lt w.isLt] at hsum
  exact hsum.symm

/-- The fields of a word by their bits. -/
theorem extractLsb'_eq_of_getLsbD {w : BitVec 32} {lo len : Nat} {v : BitVec len}
    (h : ∀ i < len, w.getLsbD (lo + i) = v.getLsbD i) : w.extractLsb' lo len = v :=
  BitVec.eq_of_getLsbD_eq fun i hi => by simp [hi, h i hi]

/-- The reserved bits of the STATUS word are 0 (R28). -/
theorem State.statusWord_reserved (s : State) {k : Nat} (hk : k = 2 ∨ k = 3 ∨ 11 ≤ k ∧ k < 24) :
    s.statusWord.getLsbD k = false := by
  have hcode : (decide (4 ≤ k) && s.faultCode.getLsbD (k - 4)) = false := by
    rcases hk with rfl | rfl | hk
    · rfl
    · rfl
    · rw [BitVec.getLsbD_of_ge _ _ (by omega), Bool.and_false]
  have hne : k ≠ 0 ∧ k ≠ 1 ∧ k ≠ 8 ∧ k ≠ 9 ∧ k ≠ 10 ∧ k ≠ 24 := by omega
  simp [State.statusWord_getLsbD, hcode, hne]

/-- Bits 7:4 of the STATUS word are FAULT_CODE (R28). -/
theorem State.statusWord_faultCode (s : State) {i : Nat} (hi : i < 4) :
    s.statusWord.getLsbD (4 + i) = s.faultCode.getLsbD i := by
  have hne : 4 + i ≠ 1 ∧ 4 + i ≠ 8 ∧ 4 + i ≠ 9 ∧ 4 + i ≠ 10 ∧ 4 + i ≠ 24 := by omega
  simp [State.statusWord_getLsbD, hne]

/-- Bits 31:24 of the STATUS word are the interface version, 1 (R28). -/
theorem State.statusWord_ifver (s : State) (i : Nat) :
    s.statusWord.getLsbD (24 + i) = (0x01 : BitVec 8).getLsbD i := by
  have hcode : s.faultCode.getLsbD (24 + i - 4) = false := BitVec.getLsbD_of_ge _ _ (by omega)
  have hne : 24 + i ≠ 1 ∧ 24 + i ≠ 8 ∧ 24 + i ≠ 9 ∧ 24 + i ≠ 10 := by omega
  simp [State.statusWord_getLsbD, hcode, hne]

/-- The STATUS word after reset, build by build (R28, R31). -/
theorem State.resetOf_statusWord (c : Config) :
    (State.resetOf c).statusWord.toNat = 0x01000000 + (if c.n = 8 then 0x100 else 0) +
      (if c.variant = .plusPlus then 0x200 else 0) + (if c.backend = .hwSpecific then 0x400 else 0) := by
  obtain ⟨lanes, variant, backend⟩ := c
  cases lanes <;> cases variant <;> cases backend <;> rfl

/-- Settles O44, by the word's bits. -/
theorem statusAnswersItsWord : Obligations.StatusAnswersItsWord := by
  refine ⟨fun s => ⟨_, s.statusWord, execStatus_exact s, length_le32bytes _, sum_le32bytes _, ?seeded, ?faulted,
    extractLsb'_eq_of_getLsbD fun i hi => ?reserved, extractLsb'_eq_of_getLsbD fun i hi => s.statusWord_faultCode hi,
    ?lanes, ?variant, ?backend, extractLsb'_eq_of_getLsbD fun i hi => ?reservedHigh,
    extractLsb'_eq_of_getLsbD fun i _ => s.statusWord_ifver i⟩, State.resetOf_statusWord⟩
  case reserved | reservedHigh => exact (s.statusWord_reserved (by omega)).trans BitVec.getLsbD_zero.symm
  case lanes =>
    rw [s.statusWord_getLsbD]
    simp [Config.n_eq_eight_iff]
  case seeded | faulted | variant | backend =>
    rw [s.statusWord_getLsbD]
    simp

end Sys2Proof.Machine

/-! Proofs about the block's port (20_memory.md): transactions as bytes, host steps in order, the layouts of a seed payload
and of a draw's data, and the responses. -/

namespace Sys2Proof.Machine

/-! ### Transactions as bytes -/

/-- The word of a command the port can express, with its payload, decodes to it. -/
theorem decodeCommand_encodeCommand {i : Instr} (h : i.wellFormed = true) :
    decodeCommand (encodeCommand i) i.payload = .ok i := by
  obtain ⟨hopc, hrsv, hlen, -⟩ := Laws.CommandFields.of_encode i h
  rw [decodeCommand_of_length hlen.symm, hopc, hrsv, opcodeInstr_opcodeOf]

/-- The bytes of a transaction that is a command decode to it and leave the bytes after it. -/
theorem decode_transaction {cmd : CmdWord} {payload : List Byte} {i : Instr} (h : decodeCommand cmd payload = .ok i)
    (rest : List Byte) : decode (le32bytes cmd ++ payload ++ rest) = .ok (i, rest) := by
  have hlen : cmdLen cmd = payload.length := (decodeCommand_ok h).1.symm
  have hword : (le32bytes cmd ++ (payload ++ rest)).take 4 = le32bytes cmd := List.take_left' (length_le32bytes cmd)
  have hbytes : (le32bytes cmd ++ (payload ++ rest)).drop 4 = payload ++ rest := List.drop_left' (length_le32bytes cmd)
  rw [List.append_assoc, decode, if_neg (by simp), hword, hbytes, le32_le32bytes]
  simp only [hlen, List.take_left, List.drop_left, h]
  exact if_neg (by simp)

/-- Settles O5: the word's fields are the encoder's, and LEN says where the payload ends. -/
theorem decodeOfEncode : Obligations.DecodeOfEncode := fun _ rest h =>
  decode_transaction (decodeCommand_encodeCommand h) rest

/-! ### A transaction as a step -/

/-- A payload of another length than LEN has no move, whatever the state (R42). -/
theorem transact_of_length_ne {cmd : CmdWord} {payload : List Byte} (h : payload.length ≠ cmdLen cmd) (s : State) :
    transact cmd payload s = .refused .payloadLength := by
  simp only [transact, decodeCommand, if_pos h]

/-- Settles O10: a step takes the head of the inbox, and a transaction performs the command it decodes to. -/
theorem stepRunsTheDecodedCommand : Obligations.StepRunsTheDecodedCommand := by
  intro s cmd payload rest i hin hdec
  rw [step_cons hin, hostStep, transact, hdec]

/-- Settles O11: LEN is the upper half of the word. -/
theorem wrongPayloadLengthHasNoMove : Obligations.WrongPayloadLengthHasNoMove := by
  intro s cmd payload rest hin hlen
  rw [← cmdLen_eq] at hlen
  rw [step_cons hin, hostStep, transact_of_length_ne hlen]

/-! ### Host steps in order -/

/-- Performing the first of several host steps leaves the others to come: they are not read. -/
theorem step_setInbox_cons (s : State) (x : HostStep) (xs : List HostStep) :
    step (s.setInbox (x :: xs)) = mapNext (·.setInbox xs) (hostStep x s) :=
  (carries_onPort xs []).hostStep (fun _ => rfl) (fun _ => rfl) x s

/-- Settles O12, by induction on the first sequence: its first step does the same whatever follows it. -/
theorem hostStepsComposeInOrder : Obligations.HostStepsComposeInOrder := by
  intro xs ys
  induction xs with
  | nil => exact fun s => congrArg (Sys2Proof.core.run · (s.setInbox ys)) (Nat.zero_add ys.length)
  | cons x xs ih =>
    intro s
    have hwhole := step_setInbox_cons s x (xs ++ ys)
    have hfirst := step_setInbox_cons s x xs
    rw [List.length_cons, Nat.add_right_comm, List.cons_append]
    cases hx : hostStep x s with
    | next t =>
      rw [hx] at hwhole hfirst
      rw [run_succ_next _ hwhole, run_succ_next _ hfirst]
      exact ih t
    | fault e =>
      rw [hx] at hwhole hfirst
      rw [run_succ_fault _ hwhole, run_succ_fault _ hfirst]
    | refused e =>
      rw [hx] at hwhole hfirst
      rw [run_succ_refused _ hwhole, run_succ_refused _ hfirst]

/-- A host step in a state that meets the invariant is answered, or has no move for its payload's length. -/
theorem hostStep_next_or_refused {s : State} (hi : s.Inv) (x : HostStep) :
    (∃ t, hostStep x s = .next t) ∨ hostStep x s = .refused .payloadLength := by
  cases x with
  | command cmd payload =>
    by_cases hlen : payload.length = cmdLen cmd
    · exact .inl (transact_next hi hlen)
    · exact .inr (transact_of_length_ne hlen s)
  | reset => exact .inl ⟨_, rfl⟩
  | resetDuring cmd delivered =>
    by_cases hlen : cmdLen cmd < delivered.length
    · exact .inr (if_pos hlen)
    · exact .inl ⟨_, if_neg hlen⟩

/-- And so is a step. -/
theorem step_next_or_refused {s : State} (hi : s.Inv) :
    (∃ t, step s = .next t) ∨ step s = .refused .payloadLength := by
  cases hin : s.inbox with
  | nil => exact .inl ⟨s, step_idle hin⟩
  | cons x rest =>
    rw [step_cons hin]
    exact hostStep_next_or_refused (hi.setInbox rest) x

/-- Settles O49, by induction on the length of the run: a step that is answered keeps the invariant. -/
theorem noRunStopsInAFault : Obligations.NoRunStopsInAFault := by
  intro s n
  induction n generalizing s with
  | zero => exact fun hi => .inl ⟨s, run_zero s, hi⟩
  | succ n ih =>
    intro hi
    rcases step_next_or_refused hi with ⟨t, ht⟩ | hrefused
    · rw [run_succ_next n ht]
      exact ih t (stepKeepsTheInvariant s t hi ht)
    · exact .inr (run_succ_refused n hrefused)

/-! ### The seed payload -/

/-- The word of 8 bytes of a payload, as the sum R12 writes. -/
theorem le64_slice_toNat {payload : List Byte} {i : Nat} (h : i + 8 ≤ payload.length) :
    (le64 (slice payload i 8)).toNat = ∑ m ∈ Finset.range 8, (payload.getD (i + m) 0).toNat * 2 ^ (8 * m) := by
  have hlt := leNat_lt (slice payload i 8)
  have hsum := leNat_eq_sum (slice payload i 8)
  rw [length_slice payload i 8 h] at hlt hsum
  rw [le64, BitVec.toNat_ofNat, Nat.mod_eq_of_lt hlt, hsum]
  refine Finset.sum_congr rfl fun m hm => ?_
  simp [slice, List.getD_eq_getElem?_getD, Finset.mem_range.1 hm]

/-- SEED writes each of the four registers from the payload (R45). -/
theorem State.loadSeed_reg (s : State) (payload : List Byte) {k : Nat} (hk : k < 4) :
    (s.loadSeed payload).reg k = some (seedReg s.cfg.n payload k) := by
  interval_cases k <;> rfl

/-- Lane j of register Sk is the payload's word k·P_N + j. -/
theorem seedReg_getElem? {n k j : Nat} (payload : List Byte) (hj : j < n) :
    (seedReg n payload k)[j]? = some (le64 (slice payload (8 * (k * n + j)) 8)) := by
  simp [seedReg, seedWord, hj]

/-- A SEED of 32·P_N bytes on an unfaulted block completes. -/
theorem exec_seed {s : State} {payload : List Byte} (hf : s.faulted = false) (hl : payload.length = 32 * s.cfg.n) :
    exec (.seed 0 payload) s = .next ((s.loadSeed payload).respond codeOk []) := by
  rcases execSeed_cases 0 payload s with ⟨hf', -⟩ | ⟨-, hr, -⟩ | ⟨-, -, hl', -⟩ | ⟨-, -, -, hexec⟩
  · simp [hf] at hf'
  · exact absurd rfl hr
  · exact absurd hl hl'
  · exact hexec

/-- Settles O23: word i of the payload is word (i div P_N)·P_N + i mod P_N. -/
theorem seedLoadsEveryLane : Obligations.SeedLoadsEveryLane := by
  intro s payload hf hl
  have hheld : (s.loadSeed payload).lanesHeld = true := (State.lanesHeld_iff _).2 ⟨_, s.loadSeed_lanes payload⟩
  refine ⟨_, exec_seed hf hl, rfl, rfl, rfl, rfl, rfl, rfl, hheld, fun i hi => ?_⟩
  have hn : 0 < s.cfg.n := by omega
  have hk : i / s.cfg.n < 4 := (Nat.div_lt_iff_lt_mul hn).2 hi
  refine ⟨_, _, s.loadSeed_reg payload hk, seedReg_getElem? payload (Nat.mod_lt i hn), ?_⟩
  rw [Nat.div_add_mod', le64_slice_toNat (by omega)]

/-! ### The draws -/

/-- The output function, by the variant (00_scope.md R6). -/
theorem outWord_eq_ite (v : Variant) (l : Lane) : outWord v l = if v = .plus then outPlus l else outPlusPlus l := by
  cases v <;> rfl

/-- A draw's data are 8·P_N bytes. -/
theorem length_drawData {s : State} {ls : List Lane} (h : s.lanes = some ls) (word : Lane → Word) :
    (vectorBytes (ls.map word)).length = 8 * s.cfg.n := by
  rw [length_vectorBytes, List.length_map, State.lanes_length h]

/-- A draw takes its word from each lane before the lane advances, and puts it at the lane's place in the data
(R46, R94, R96). -/
theorem State.drawLanes_everyLane {s : State} {ls : List Lane} (h : s.lanes = some ls) (convert : Word → Word)
    {j : Nat} (hj : j < s.cfg.n) :
    ∃ l, s.lane j = some l ∧ (s.drawLanes convert ls).lane j = some (advance l) ∧
      slice (vectorBytes (ls.map fun l => convert (outWord s.cfg.variant l))) (8 * j) 8 =
        le64bytes (convert (if s.cfg.variant = .plus then outPlus l else outPlusPlus l)) := by
  rw [← State.lanes_length h] at hj
  have hl : s.lane j = some ls[j] := by rw [State.lane_eq h, List.getElem?_eq_getElem hj]
  refine ⟨ls[j], hl, ?_, ?_⟩
  · rw [State.drawLanes_lane h, hl, Option.map_some]
  · rw [slice_vectorBytes _ j (by simpa using hj), List.getElem_map, outWord_eq_ite]

/-- Settles O32, by what a draw does to every lane. -/
theorem nextU64DrawsEveryLane : Obligations.NextU64DrawsEveryLane := by
  intro s hi hs
  obtain ⟨ls, hls, hexec⟩ := exec_drawInstr hi hs .u64
  exact ⟨_, _, hexec, rfl, length_drawData hls _, rfl, rfl, rfl, rfl, rfl,
    fun _ => State.drawLanes_everyLane hls _⟩

/-- Settles O33, by what a draw does to every lane. -/
theorem nextF64DrawsEveryLane : Obligations.NextF64DrawsEveryLane := by
  intro s hi hs
  obtain ⟨ls, hls, hexec⟩ := exec_drawInstr hi hs .f64
  exact ⟨_, _, hexec, rfl, length_drawData hls _, rfl, rfl, rfl, rfl, rfl,
    fun _ => State.drawLanes_everyLane hls _⟩

/-- Settles O34, by what a draw can do in a state that meets the invariant. -/
theorem drawsFollowTheirRules : Obligations.DrawsFollowTheirRules := by
  refine ⟨by decide, by decide, fun s k rsv payload i hi hk => ?_⟩
  have hexec : exec i s = draw (drawConvert k) rsv payload s := by subst hk; cases k <;> rfl
  rw [hexec]
  rcases draw_cases (drawConvert k) rsv payload s hi with
    ⟨hf, hdraw⟩ | ⟨hf, hx, hdraw⟩ | ⟨hf, hr, hp, hs, hdraw⟩ | ⟨hf, hr, hp, hs, ls, hls, -, hdraw⟩
  · rw [if_pos hf]
    exact hdraw
  · rw [if_neg (by simp [hf]), if_pos hx]
    exact ⟨_, hdraw, s.raise_faultEntered _⟩
  · rw [if_neg (by simp [hf]), if_neg (by simp [hr, hp]), if_pos hs]
    exact ⟨_, hdraw, s.raise_faultEntered _⟩
  · rw [if_neg (by simp [hf]), if_neg (by simp [hr, hp]), if_neg (by simp [hs])]
    refine ⟨_, _, hdraw, length_drawData hls _, fun j hj => ?_, rfl⟩
    cases k <;> exact State.drawLanes_everyLane hls _ hj

/-! ### The responses -/

theorem codeOfFault_mem_legalCodes (c : FaultCause) : codeOfFault c ∈ legalCodes := by
  cases c <;> decide

/-- Settles O50, by the effects a transaction can have. -/
theorem responseCodesAndLengths : Obligations.ResponseCodesAndLengths := by
  intro s cmd payload rest hi hin hlen
  obtain ⟨t, ht⟩ := transact_next (hi.setInbox rest) hlen
  have hstep : step s = .next t := (step_cons hin).trans ht
  have hok : codeOk ∈ legalCodes := by decide
  cases transact_effect ht with
  | rejected hf =>
    exact ⟨_, _, hstep, rfl, by decide, fun _ => rfl, (absurd · codeOk_ne_rejected.symm), fun _ h => absurd rfl h,
      fun _ => ⟨hf, rfl⟩⟩
  | illegalOpcode hf | reservedField hf | seedLength hf | notSeeded hf =>
    obtain ⟨hne, hrej⟩ := codeOfFault_ne _
    exact ⟨_, _, hstep, rfl, codeOfFault_mem_legalCodes _, fun _ => rfl, (absurd · hne),
      fun _ _ => ⟨hf, rfl, rfl⟩, (absurd · hrej)⟩
  | seeded _ ho =>
    exact ⟨_, _, hstep, rfl, hok, absurd rfl, fun _ => .inl ⟨ho, rfl⟩, absurd rfl, (absurd · codeOk_ne_rejected)⟩
  | drawn convert ls _ hls _ _ ho =>
    exact ⟨_, _, hstep, rfl, hok, absurd rfl, fun _ => .inr (.inl ⟨ho, length_drawData hls _⟩), absurd rfl,
      (absurd · codeOk_ne_rejected)⟩
  | status hc =>
    exact ⟨_, _, hstep, rfl, hok, absurd rfl,
      fun _ => .inr (.inr ⟨((cmd_eq_status_iff cmd).1 hc).1, length_le32bytes _⟩), absurd rfl,
      (absurd · codeOk_ne_rejected)⟩

end Sys2Proof.Machine

/-! Proofs about the encoding (30_encoding.md): what decodes and to what, the rows of the opcode table, and what the
assembler makes of a statement. -/

namespace Sys2Proof.Machine

/-! ### What decodes -/

/-- A command word that decodes is its command's own, and the payload fits LEN. -/
theorem encodeCommand_of_decodeCommand {cmd : CmdWord} {payload : List Byte} {i : Instr}
    (h : decodeCommand cmd payload = .ok i) :
    i.wellFormed = true ∧ encodeCommand i = cmd ∧ i.payload = payload := by
  obtain ⟨hlen, hopc, hrsv, hpay⟩ := decodeCommand_ok h
  refine ⟨?_, ?_, hpay⟩
  · rw [Instr.wellFormed, hpay, hlen]
    exact decide_eq_true (cmdLen_lt cmd)
  · rw [encodeCommand, hopc, hrsv, hpay, hlen, packCommand_fields]

/-- Bytes that decode are a command word, the LEN bytes that decode with it, and the bytes left. -/
theorem decode_ok {bs rest : List Byte} {i : Instr} (h : decode bs = .ok (i, rest)) :
    ∃ cmd payload, decodeCommand cmd payload = .ok i ∧ bs = le32bytes cmd ++ payload ++ rest := by
  unfold decode at h
  split at h
  · cases h
  next hword =>
    simp only at h
    split at h
    · cases h
    · split at h
      next hdec =>
        cases h
        refine ⟨_, _, hdec, ?_⟩
        rw [le32bytes_le32 _ (by simp; omega), List.append_assoc, List.take_append_drop, List.take_append_drop]
      · cases h

/-- Settles O6: a word is its three fields, and decoding reads all three. -/
theorem encodeOfDecode : Obligations.EncodeOfDecode := by
  intro bs i rest h
  obtain ⟨cmd, payload, hdec, hbs⟩ := decode_ok h
  obtain ⟨hwf, hcmd, hpay⟩ := encodeCommand_of_decodeCommand hdec
  exact ⟨hwf, by rw [hbs, encode, hcmd, hpay]⟩

/-! ### Decoding by opcode -/

/-- The fields a successful decoding reads are all it takes to decode. -/
theorem decodeCommand_of_fields {cmd : CmdWord} {i : Instr} (hlen : i.payload.length = cmdLen cmd)
    (hopc : opcodeOf i = cmdOpc cmd) (hrsv : i.rsv = cmdRsv cmd) : decodeCommand cmd i.payload = .ok i := by
  rw [decodeCommand_of_length hlen, ← hopc, ← hrsv, opcodeInstr_opcodeOf]

/-- OPC 0 and 5 to 255 name no command (R62). -/
theorem opcodeInstr_eq_none {opc : BitVec 8} (h : opc.toNat = 0 ∨ 4 < opc.toNat) (rsv : BitVec 8)
    (payload : List Byte) : opcodeInstr opc rsv payload = none := by
  unfold opcodeInstr
  split
  · omega
  · omega
  · omega
  · omega
  · rfl

/-- The RSV field as the word's second byte, cut to a byte. -/
theorem cmdRsv_eq_ofNat (cmd : CmdWord) : cmdRsv cmd = BitVec.ofNat 8 (cmd.toNat / 2 ^ 8) := by
  apply BitVec.eq_of_toNat_eq
  rw [cmdRsv_toNat, BitVec.toNat_ofNat]

/-- Settles O7: the fields of the word by arithmetic, and the opcode's command. -/
theorem decodingIsByOpcodeAlone : Obligations.DecodingIsByOpcodeAlone := by
  intro cmd payload hlen
  rw [← cmdLen_eq] at hlen
  rw [← cmdOpc_toNat, ← cmdRsv_eq_ofNat]
  have hok (i : Instr) (hpay : i.payload = payload) (hrsv : i.rsv = cmdRsv cmd)
      (ho : (cmdOpc cmd).toNat = (opcodeOf i).toNat) : decodeCommand cmd payload = .ok i := by
    subst hpay
    exact decodeCommand_of_fields hlen (BitVec.eq_of_toNat_eq ho.symm) hrsv
  refine ⟨hok (.seed _ _) rfl rfl, hok (.nextU64 _ _) rfl rfl, hok (.nextF64 _ _) rfl rfl, hok (.status _ _) rfl rfl,
    fun ho => ?_⟩
  rw [decodeCommand_of_length hlen, opcodeInstr_eq_none ho]

/-- Settles O8, by the fields of the five words. -/
theorem legalWordsDecode : Obligations.LegalWordsDecode := by
  refine ⟨fun p hp => ?_, fun p hp => ?_, rfl, rfl, rfl⟩
  · exact decodeCommand_of_fields (i := .seed 0 p) (hp.trans (by decide)) rfl rfl
  · exact decodeCommand_of_fields (i := .seed 0 p) (hp.trans (by decide)) rfl rfl

/-! ### The rows of the opcode table -/

/-- A word of a row has the row's OPC and RSV: every mask holds both fields, and no pattern has a bit above them. -/
theorem and_low_of_matches {r : OpcodeRow} {cmd : CmdWord} (hr : r ∈ opcodeTable) (h : r.matches cmd = true) :
    cmd &&& 0x0000FFFF = r.pattern := by
  have hmask : ∀ r ∈ opcodeTable, r.mask &&& 0x0000FFFF = 0x0000FFFF ∧ r.pattern &&& 0x0000FFFF = r.pattern := by
    decide
  obtain ⟨hm, hp⟩ := hmask r hr
  have hcmd : cmd &&& r.mask = r.pattern := by simpa [OpcodeRow.matches] using h
  calc cmd &&& 0x0000FFFF = (cmd &&& r.mask) &&& 0x0000FFFF := by rw [BitVec.and_assoc, hm]
    _ = r.pattern := by rw [hcmd, hp]

/-- The OPC field is among a word's low sixteen bits. -/
theorem cmdOpc_and_low (cmd : CmdWord) : cmdOpc (cmd &&& 0x0000FFFF) = cmdOpc cmd := by
  rw [cmdOpc, BitVec.extractLsb'_and]
  exact BitVec.and_allOnes

/-- The RSV field is among a word's low sixteen bits. -/
theorem cmdRsv_and_low (cmd : CmdWord) : cmdRsv (cmd &&& 0x0000FFFF) = cmdRsv cmd := by
  rw [cmdRsv, BitVec.extractLsb'_and]
  exact BitVec.and_allOnes

/-- A row's pattern has RSV 0 and the OPC of the command with the row's mnemonic (R62, R63). -/
theorem exists_instr_of_row {r : OpcodeRow} (hr : r ∈ opcodeTable) (payload : List Byte) :
    ∃ i : Instr, opcodeOf i = cmdOpc r.pattern ∧ i.rsv = cmdRsv r.pattern ∧ i.mnemonic = r.mnemonic ∧ i.rsv = 0 ∧
      i.payload = payload := by
  simp only [opcodeTable, List.mem_cons, List.not_mem_nil, or_false] at hr
  rcases hr with rfl | rfl | rfl | rfl
  · exact ⟨.seed 0 payload, rfl, rfl, rfl, rfl, rfl⟩
  · exact ⟨.nextU64 0 payload, rfl, rfl, rfl, rfl, rfl⟩
  · exact ⟨.nextF64 0 payload, rfl, rfl, rfl, rfl, rfl⟩
  · exact ⟨.status 0 payload, rfl, rfl, rfl, rfl, rfl⟩

/-- The rows' patterns are distinct. -/
theorem row_eq_of_pattern_eq : ∀ r ∈ opcodeTable, ∀ r' ∈ opcodeTable, r'.pattern = r.pattern → r' = r := by
  decide

/-- Settles O9: the low half of a row's word is the row's pattern. -/
theorem tableRowsDecode : Obligations.TableRowsDecode := by
  intro r cmd payload hr hmatch hlen
  have hlow := and_low_of_matches hr hmatch
  obtain ⟨i, hopc, hrsv, hname, hzero, rfl⟩ := exists_instr_of_row hr payload
  rw [← hlow, cmdOpc_and_low] at hopc
  rw [← hlow, cmdRsv_and_low] at hrsv
  refine ⟨⟨i, decodeCommand_of_fields hlen hopc hrsv, hname, hzero, rfl⟩, fun r' hr' hmatch' => ?_⟩
  exact row_eq_of_pattern_eq r hr r' hr' ((and_low_of_matches hr' hmatch').symm.trans hlow)

/-! ### The assembler -/

/-- A build has at most eight lanes (R5). -/
theorem Config.n_le (c : Config) : c.n ≤ 8 := by
  rw [Config.n]
  cases c.lanes <;> decide

/-- Legal is RSV 0 and the LEN the build requires (R62). -/
theorem legal_iff (c : Config) (i : Instr) :
    i.legal c = true ↔ i.rsv = 0 ∧ i.payload.length = i.requiredLen c := by
  simp [Instr.legal]

/-- The port can express every legal command. -/
theorem wellFormed_of_legal {c : Config} {i : Instr} (h : i.legal c = true) : i.wellFormed = true := by
  have hn := Config.n_le c
  have hreq : i.requiredLen c ≤ 32 * c.n := by
    cases i <;> simp [Instr.requiredLen]
  obtain ⟨-, hlen⟩ := (legal_iff c i).1 h
  rw [Instr.wellFormed]
  exact decide_eq_true (by omega)

/-- A SEED payload's length, from its 4·P_N words (R45). -/
theorem length_seedBytes {c : Config} {ws : List Nat} (h : ws.length = 4 * c.n) :
    (vectorBytes (ws.map (BitVec.ofNat 64))).length = 32 * c.n := by
  rw [length_vectorBytes, List.length_map, h]
  omega

/-- What a SEED of 4·P_N words in range assembles to: the encoding of SEED with the words' bytes (R65). -/
theorem assembleSeed_of_words {c : Config} {ws : List Nat} (hlen : ws.length = 4 * c.n)
    (hrange : ∀ w ∈ ws, w < 2 ^ 64) :
    assembleSeed c ws = .ok (encodeCommand (.seed 0 (vectorBytes (ws.map (BitVec.ofNat 64)))),
      vectorBytes (ws.map (BitVec.ofNat 64))) := by
  have hany : ¬ ws.any (fun w => 2 ^ 64 ≤ w) = true := by simpa using hrange
  rw [assembleSeed, if_neg (not_not.2 hlen), if_neg hany, ← length_seedBytes hlen]
  rfl

/-- What the assembler makes of a SEED is a legal one's encoding. -/
theorem assembleSeed_ok {c : Config} {ws : List Nat} {cmd : CmdWord} {payload : List Byte}
    (h : assembleSeed c ws = .ok (cmd, payload)) :
    (Instr.seed 0 payload).legal c = true ∧ cmd = encodeCommand (.seed 0 payload) := by
  by_cases hlen : ws.length = 4 * c.n
  · by_cases hrange : ∀ w ∈ ws, w < 2 ^ 64
    · rw [assembleSeed_of_words hlen hrange] at h
      cases h
      exact ⟨(legal_iff _ _).2 ⟨rfl, length_seedBytes hlen⟩, rfl⟩
    · rw [assembleSeed, if_neg (not_not.2 hlen), if_pos (by simpa using hrange)] at h
      cases h
  · rw [assembleSeed, if_pos hlen] at h
    cases h

/-- What the assembler makes of a SEED.LANES is the SEED of its transposed words. -/
theorem assembleSeedLanes_ok {c : Config} {ts : List (List Nat)} {cmd : CmdWord} {payload : List Byte}
    (h : assembleSeedLanes c ts = .ok (cmd, payload)) :
    assembleSeed c (transposeLanes ts) = .ok (cmd, payload) := by
  unfold assembleSeedLanes at h
  split at h
  · cases h
  · split at h
    · cases h
    · exact h

/-- What the assembler makes of a .raw has LEN payload bytes. -/
theorem assembleRaw_ok {w : Nat} {bs : List Nat} {cmd : CmdWord} {payload : List Byte}
    (h : assembleRaw w bs = .ok (cmd, payload)) : payload.length = cmdLen cmd := by
  unfold assembleRaw at h
  split at h
  · cases h
  · split at h
    · cases h
    next hlen =>
      cases h
      rw [List.length_map]
      exact not_not.1 hlen

/-- A statement that assembles is a .raw, or what the assembler makes of it is a legal command's encoding. -/
theorem assemble_ok {c : Config} {a : Asm} {cmd : CmdWord} {payload : List Byte}
    (h : assemble c a = .ok (cmd, payload)) :
    (∃ w bs, a = .raw w bs) ∨ ∃ i : Instr, i.legal c = true ∧ cmd = encodeCommand i ∧ payload = i.payload := by
  cases a with
  | seed ws =>
    obtain ⟨hlegal, hcmd⟩ := assembleSeed_ok h
    exact .inr ⟨_, hlegal, hcmd, rfl⟩
  | seedLanes ts =>
    obtain ⟨hlegal, hcmd⟩ := assembleSeed_ok (assembleSeedLanes_ok h)
    exact .inr ⟨_, hlegal, hcmd, rfl⟩
  | nextU64 | nextWideI =>
    cases h
    exact .inr ⟨.nextU64 0 [], rfl, by decide, rfl⟩
  | nextF64 | nextWideF =>
    cases h
    exact .inr ⟨.nextF64 0 [], rfl, by decide, rfl⟩
  | status =>
    cases h
    exact .inr ⟨.status 0 [], rfl, by decide, rfl⟩
  | raw w bs => exact .inl ⟨w, bs, rfl⟩

/-- Settles O53: a statement other than .raw assembles to a legal command's encoding, and .raw is checked for LEN. -/
theorem assembledStatementsAreLegal : Obligations.AssembledStatementsAreLegal := by
  intro c a cmd payload h
  rcases assemble_ok h with ⟨w, bs, rfl⟩ | ⟨i, hlegal, rfl, rfl⟩
  · exact ⟨assembleRaw_ok h, fun hraw => absurd rfl (hraw w bs)⟩
  · have hwf := wellFormed_of_legal hlegal
    have hdec := decodeCommand_encodeCommand hwf
    exact ⟨(decodeCommand_ok hdec).1, fun _ => ⟨i, hdec, hlegal, hwf⟩⟩

/-- Settles O55, by what the four statements assemble to. -/
theorem wideDrawsAreAliases : Obligations.WideDrawsAreAliases := fun _ => ⟨rfl, rfl, rfl, rfl⟩

/-! ### SEED.LANES -/

/-- m rows of n words each are m·n words. -/
theorem length_flatMap_range {α : Type} {f : Nat → List α} {n : Nat} (hf : ∀ k, (f k).length = n) (m : Nat) :
    ((List.range m).flatMap f).length = m * n := by
  simp [List.length_flatMap, hf]

/-- Word k·n + j of m rows of n words each, written one after another, is word j of row k. -/
theorem getElem?_flatMap_range {α : Type} {f : Nat → List α} {n : Nat} (hf : ∀ k, (f k).length = n) {k m j : Nat}
    (hk : k < m) (hj : j < n) : ((List.range m).flatMap f)[k * n + j]? = (f k)[j]? := by
  induction m with
  | zero => omega
  | succ m ih =>
    have hlen := length_flatMap_range hf m
    rw [List.range_succ, List.flatMap_append, List.flatMap_singleton]
    rcases Nat.lt_succ_iff_lt_or_eq.1 hk with hlt | rfl
    · have hrow : (k + 1) * n ≤ m * n := Nat.mul_le_mul_right n hlt
      rw [List.getElem?_append_left (by rw [hlen]; linarith), ih hlt]
    · rw [List.getElem?_append_right (by omega), hlen, Nat.add_sub_cancel_left]

@[simp] theorem length_transposeLanes (ts : List (List Nat)) : (transposeLanes ts).length = 4 * ts.length :=
  length_flatMap_range (fun _ => List.length_map _) 4

/-- Word k·P_N + j of the transposed words is element k of tuple j (R66). -/
theorem transposeLanes_getElem? {ts : List (List Nat)} {t : List Nat} {j k : Nat} (hk : k < 4) (ht : ts[j]? = some t) :
    (transposeLanes ts)[k * ts.length + j]? = some (t.getD k 0) := by
  obtain ⟨hj, -⟩ := List.getElem?_eq_some_iff.1 ht
  rw [transposeLanes, getElem?_flatMap_range (fun _ => List.length_map _) hk hj, List.getElem?_map, ht, Option.map_some]

/-- The transposed words of tuples of four are words of the tuples. -/
theorem mem_transposeLanes {ts : List (List Nat)} (hsize : ∀ t ∈ ts, t.length = 4) {w : Nat}
    (h : w ∈ transposeLanes ts) : ∃ t ∈ ts, w ∈ t := by
  simp only [transposeLanes, List.mem_flatMap, List.mem_range, List.mem_map] at h
  obtain ⟨k, hk, t, ht, rfl⟩ := h
  rw [← hsize t ht] at hk
  exact ⟨t, ht, by rw [List.getD_eq_getElem t 0 hk]; exact List.getElem_mem hk⟩

/-- Lane j of register Sk in a payload of words is word k·P_N + j (R45). -/
theorem seedWord_vectorBytes {ws : List Word} {n k j : Nat} {w : Word} (h : ws[k * n + j]? = some w) :
    seedWord n (vectorBytes ws) k j = w := by
  obtain ⟨hlt, hw⟩ := List.getElem?_eq_some_iff.1 h
  rw [seedWord, le64_slice_vectorBytes ws _ hlt, hw]

/-- P_N tuples of four words assemble to the SEED of their transposed words (R66). -/
theorem assembleSeedLanes_of_tuples {c : Config} {ts : List (List Nat)} (hcount : ts.length = c.n)
    (hsize : ∀ t ∈ ts, t.length = 4) : assembleSeedLanes c ts = assembleSeed c (transposeLanes ts) := by
  rw [assembleSeedLanes, if_neg (not_not.2 hcount), if_neg (by simpa using hsize)]

/-- Settles O54: the transposed words stand in the payload where SEED reads lane j of register Sk. -/
theorem seedLanesTransposes : Obligations.SeedLanesTransposes := by
  intro c ts
  refine ⟨fun hcount => if_pos hcount, fun hcount hsize => ?_, fun hcount hwords => ?_⟩
  · rw [assemble, assembleSeedLanes, if_neg (not_not.2 hcount), if_pos (by simpa using hsize)]
  · have hsize : ∀ t ∈ ts, t.length = 4 := fun t ht => (hwords t ht).1
    have hlen : (transposeLanes ts).length = 4 * c.n := by rw [length_transposeLanes, hcount]
    have hrange : ∀ w ∈ transposeLanes ts, w < 2 ^ 64 := fun w hw => by
      obtain ⟨t, ht, hwt⟩ := mem_transposeLanes hsize hw
      exact (hwords t ht).2 w hwt
    refine ⟨_, (assembleSeedLanes_of_tuples hcount hsize).trans (assembleSeed_of_words hlen hrange),
      length_seedBytes hlen, fun j k t w ht hw => ?_⟩
    obtain ⟨hk, hkw⟩ := List.getElem?_eq_some_iff.1 hw
    obtain ⟨ht4, htw⟩ := hwords t (List.mem_of_getElem? ht)
    have hword := transposeLanes_getElem? (ht4 ▸ hk) ht
    rw [List.getD_eq_getElem t 0 hk, hkw, hcount] at hword
    rw [seedWord_vectorBytes (w := BitVec.ofNat 64 w) (by rw [List.getElem?_map, hword, Option.map_some]),
      BitVec.toNat_ofNat, Nat.mod_eq_of_lt (htw w (hkw ▸ List.getElem_mem hk))]

end Sys2Proof.Machine

/-! Proofs about SEED (40_seed.md): its whole rule, what it checks and forgets, the sub-seed of a lane, and the scalar
streams the lanes give after it. -/

namespace Sys2Proof.Machine

/-! ### SEED's rule -/

/-- The two lane counts (R5). -/
theorem Config.n_eq_four_or_eight (c : Config) : c.n = 4 ∨ c.n = 8 := by
  rw [Config.n]
  cases c.lanes <;> decide

/-- The word of a legal SEED, by the lane count (R62, R80). -/
theorem encodeCommand_seed {c : Config} {payload : List Byte} (hl : payload.length = 32 * c.n) :
    encodeCommand (.seed 0 payload) = if c.n = 4 then 0x00800001 else 0x01000001 := by
  rw [encodeCommand, opcodeOf, Instr.rsv, Instr.payload, hl]
  rcases Config.n_eq_four_or_eight c with hn | hn <;> rw [hn] <;> decide

/-- SEED leaves the registers holding P_N lanes each. -/
theorem State.loadSeed_lanesHeld (s : State) (payload : List Byte) : (s.loadSeed payload).lanesHeld = true :=
  (State.lanesHeld_iff _).2 ⟨_, s.loadSeed_lanes payload⟩

/-- Settles O24, by the four things SEED can do. -/
theorem seedFollowsItsRule : Obligations.SeedFollowsItsRule := by
  intro s rsv payload
  refine ⟨encodeCommand_seed, ?_⟩
  rcases execSeed_cases rsv payload s with
    ⟨hf, hexec⟩ | ⟨hf, hr, hexec⟩ | ⟨hf, hr, hl, hexec⟩ | ⟨hf, hr, hl, hexec⟩
  · rw [if_pos hf]
    exact hexec
  · rw [if_neg (by simp [hf]), if_pos hr]
    exact ⟨_, hexec, s.raise_faultEntered _⟩
  · rw [if_neg (by simp [hf]), if_neg (not_not.2 hr), if_pos hl]
    exact ⟨_, hexec, s.raise_faultEntered _⟩
  · rw [if_neg (by simp [hf]), if_neg (not_not.2 hr), if_neg (not_not.2 hl)]
    exact ⟨_, hexec, s.loadSeed_lanesHeld payload,
      fun k hk j hj => ⟨_, s.loadSeed_reg payload hk, seedReg_getElem? payload hj⟩, rfl⟩

/-- Settles O25: of what SEED can do on an unfaulted block, a fault's code is never 0x00. -/
theorem seedChecksOnlyTheLength : Obligations.SeedChecksOnlyTheLength := by
  intro s rsv payload hf
  rcases execSeed_cases rsv payload s with
    ⟨hf', -⟩ | ⟨-, hr, hexec⟩ | ⟨-, -, hl, hexec⟩ | ⟨-, hr, hl, hexec⟩
  · exact absurd (hf.symm.trans hf') (by decide)
  · exact ⟨_, _, hexec, rfl, (absurd · (codeOfFault_ne _).1), fun h => absurd h.1 hr⟩
  · exact ⟨_, _, hexec, rfl, (absurd · (codeOfFault_ne _).1), fun h => absurd h.2 hl⟩
  · exact ⟨_, _, hexec, rfl, fun _ => ⟨hr, hl⟩, fun _ => rfl⟩

/-- Settles O26: SEED writes the registers from the payload and the lane count alone, and an unfaulted block's fault
code is NONE (R26). -/
theorem seedForgetsTheEarlierState : Obligations.SeedForgetsTheEarlierState := by
  intro s s' payload hi hi' hcfg hf hf' hl
  have hcode : s.faultCode = s'.faultCode := (hi.code_iff_faulted.1 hf).trans (hi'.code_iff_faulted.1 hf').symm
  refine ⟨_, _, exec_seed hf hl, exec_seed hf' (hcfg ▸ hl), ?_⟩
  simp [hcfg, hf, hf', hcode]

/-! ### The sub-seed of a lane -/

/-- Two slices that meet are one. -/
theorem slice_append_slice (p : List Byte) (i m n : Nat) : slice p i m ++ slice p (i + m) n = slice p i (m + n) := by
  simp only [slice, List.take_add, List.drop_drop]

/-- A lane is the scalar state its sub-seed gives (R83). -/
theorem laneOfSubSeed_subSeed (l : Lane) : laneOfSubSeed (subSeed l) = l := by
  rw [subSeed, laneOfSubSeed_append] <;> simp

/-- And 32 bytes are the sub-seed of the scalar state they give. -/
theorem subSeed_laneOfSubSeed {bs : List Byte} (h : bs.length = 32) : subSeed (laneOfSubSeed bs) = bs := by
  have hword (i : Nat) (hi : i + 8 ≤ 32) : le64bytes (le64 (slice bs i 8)) = slice bs i 8 :=
    le64bytes_le64 _ (length_slice bs i 8 (h ▸ hi))
  calc subSeed (laneOfSubSeed bs) = slice bs 0 8 ++ slice bs 8 8 ++ slice bs 16 8 ++ slice bs 24 8 := by
        simp only [subSeed, laneOfSubSeed, hword 0 (by decide), hword 8 (by decide), hword 16 (by decide),
          hword 24 (by decide)]
    _ = slice bs 0 32 := by
        rw [slice_append_slice bs 0 8 8, slice_append_slice bs 0 16 8, slice_append_slice bs 0 24 8]
    _ = bs := List.take_of_length_le h.le

/-- A lane's sub-seed in a payload of 4·P_N words is 32 bytes. -/
theorem length_subSeedIn {n j : Nat} {payload : List Byte} (hj : j < n) (hl : payload.length = 32 * n) :
    (subSeedIn n payload j).length = 32 := by
  simp only [subSeedIn, List.length_append]
  rw [length_slice _ _ _ (by omega), length_slice _ _ _ (by omega), length_slice _ _ _ (by omega),
    length_slice _ _ _ (by omega)]

/-- Settles O27: SEED gives lane j the scalar state of the bytes gathered, and a sub-seed and its state determine each
other. -/
theorem subSeedIsGatheredFromThePayload : Obligations.SubSeedIsGatheredFromThePayload := by
  intro s payload hf hl
  exact ⟨_, exec_seed hf hl, fun j hj => ⟨_, State.loadSeed_lane hj hl,
    subSeed_laneOfSubSeed (length_subSeedIn hj hl), laneOfSubSeed_subSeed _⟩⟩

/-! ### An all-zero lane -/

/-- The all-zero lane is a fixed point of Advance (R98). -/
theorem advance_zero : advance ⟨0, 0, 0, 0⟩ = ⟨0, 0, 0, 0⟩ := by decide

/-- Either variant's output is 0 on the all-zero lane (R98). -/
theorem outWord_zero (v : Variant) : outWord v ⟨0, 0, 0, 0⟩ = 0 := by
  cases v <;> decide

/-- Either draw answers the word 0 with 0 (R114). -/
theorem drawConvert_zero (k : DrawKind) : drawConvert k 0 = 0 := by
  cases k <;> rfl

/-- Settles O38, by the values of the lane functions on the all-zero lane. -/
theorem allZeroLaneStaysZero : Obligations.AllZeroLaneStaysZero := by
  intro s k j hi hs hlane
  obtain ⟨ls, hls, hexec⟩ := exec_drawInstr hi hs k
  have hl : ls[j]? = some ⟨0, 0, 0, 0⟩ := (State.lane_eq hls j).symm.trans hlane
  refine ⟨_, _, hexec, rfl, ?_, ?_⟩
  · rw [responseWord_vectorBytes_map hl, outWord_zero, drawConvert_zero]
  · rw [State.drawLanes_lane hls, hlane, Option.map_some, advance_zero]

/-! ### The scalar streams -/

/-- The step of a command the port can express performs it, whatever host steps follow. -/
theorem step_commandStep {s t : State} {i : Instr} (hw : i.wellFormed = true) (h : exec i s = .next t)
    (rest : List HostStep) : step (s.setInbox (commandStep i :: rest)) = .next (t.setInbox rest) := by
  rw [step_setInbox_cons, commandStep, hostStep, transact, decodeCommand_encodeCommand hw]
  exact congrArg (mapNext _) h

theorem wellFormed_drawInstr (k : DrawKind) : (drawInstr k).wellFormed = true := by
  cases k <;> rfl

/-- A draw of an unfaulted, seeded block whose lanes can be read draws every lane, whatever its FAULT_CODE. -/
theorem exec_drawInstr_of_lanes {s : State} {ls : List Lane} (hf : s.faulted = false) (hs : s.seeded = true)
    (hls : s.lanes = some ls) (k : DrawKind) : exec (drawInstr k) s = .next (s.drawLanes (drawConvert k) ls) := by
  have hdraw : draw (drawConvert k) 0 [] s = .next (s.drawLanes (drawConvert k) ls) := by
    simp [draw, guarded, bareFieldFault, drawChecked, hf, hs, hls]
  cases k <;> exact hdraw

/-- The responses of a sequence of draws from given lanes: the k-th holds every lane's k-th scalar word (R99). -/
def streamResponses (v : Variant) (ks : List DrawKind) (ls : List Lane) : List Response :=
  ks.mapIdx fun k d => ⟨codeOk, vectorBytes (ls.map fun l => drawConvert d (scalarWord v l k))⟩

@[simp] theorem length_streamResponses (v : Variant) (ks : List DrawKind) (ls : List Lane) :
    (streamResponses v ks ls).length = ks.length := List.length_mapIdx

/-- The first draw answers every lane's own word; the draws after it start at the advanced lanes. -/
theorem streamResponses_cons (v : Variant) (d : DrawKind) (ks : List DrawKind) (ls : List Lane) :
    streamResponses v (d :: ks) ls =
      ⟨codeOk, vectorBytes (ls.map fun l => drawConvert d (outWord v l))⟩ ::
        streamResponses v ks (ls.map advance) := by
  simp [streamResponses, List.mapIdx_cons, Function.comp_def, scalarWord]

/-- A run of draws answers every lane's scalar words in turn and leaves every lane advanced once a draw. -/
theorem run_draws (ks : List DrawKind) (rest : List HostStep) {s : State} {ls : List Lane} (hf : s.faulted = false)
    (hs : s.seeded = true) (hls : s.lanes = some ls) :
    ∃ t, Sys2Proof.core.run ks.length (s.setInbox ((ks.map fun k => commandStep (drawInstr k)) ++ rest)) = .next t ∧
      t.inbox = rest ∧ t.responses = s.responses ++ streamResponses s.cfg.variant ks ls ∧
      t.lanes = some (ls.map (advanceN ks.length)) := by
  induction ks generalizing s ls with
  | nil => exact ⟨_, run_zero _, rfl, (List.append_nil _).symm, hls.trans (congrArg some (List.map_id ls).symm)⟩
  | cons k ks ih =>
    have hstep := step_commandStep (wellFormed_drawInstr k) (exec_drawInstr_of_lanes hf hs hls k)
    obtain ⟨t, hrun, hrest, hresp, hlanes⟩ :=
      ih (s := s.drawLanes (drawConvert k) ls) hf hs (s.drawLanes_lanes _ ls (State.lanes_length hls))
    refine ⟨t, (run_succ_next _ (hstep _)).trans hrun, hrest, ?_, ?_⟩
    · simp [hresp, streamResponses_cons]
    · rw [hlanes, List.map_map]
      rfl

/-- Lane j's word in the k-th response is the k-th word of its scalar stream. -/
theorem streamResponses_getElem? {v : Variant} {ks : List DrawKind} {ls : List Lane} {k j : Nat} {r : Response}
    {d : DrawKind} {l : Lane} (hr : (streamResponses v ks ls)[k]? = some r) (hd : ks[k]? = some d)
    (hl : ls[j]? = some l) : r.code = codeOk ∧ responseWord r.data j = drawConvert d (scalarWord v l k) := by
  rw [streamResponses, List.getElem?_mapIdx, hd, Option.map_some, Option.some_inj] at hr
  subst hr
  exact ⟨rfl, responseWord_vectorBytes_map hl _⟩

/-- Settles O39: SEED puts every lane at its sub-seed, and the draws after it go on from there. -/
theorem lanesAreScalarStreams : Obligations.LanesAreScalarStreams := by
  intro s payload ks rest hf hl hin
  have hlegal : (Instr.seed 0 payload).legal s.cfg = true := (legal_iff _ _).2 ⟨rfl, hl⟩
  have hstep := step_commandStep (wellFormed_of_legal hlegal) (exec_seed hf hl)
    ((ks.map fun k => commandStep (drawInstr k)) ++ rest)
  obtain ⟨t, hrun, hrest, hresp, hlanes⟩ := run_draws ks rest
    (s := (s.loadSeed payload).respond codeOk []) hf rfl (s.loadSeed_lanes payload)
  have hrun' : Sys2Proof.core.run (ks.length + 1) (s.setInbox s.inbox) = .next t := by
    rw [hin]
    exact (run_succ_next _ hstep).trans hrun
  refine ⟨t, _, hrun', hrest, by simpa [codeOk] using hresp, length_streamResponses _ _ _, fun j hj => ⟨_, rfl, ?_⟩⟩
  have hlane : (seedLanes s.cfg.n payload)[j]? = some (laneOfSubSeed (subSeedIn s.cfg.n payload j)) :=
    (State.lane_eq (s.loadSeed_lanes payload) j).symm.trans (State.loadSeed_lane hj hl)
  refine ⟨?_, fun k r d hr hd => streamResponses_getElem? hr hd hlane⟩
  rw [State.lane_eq hlanes, List.getElem?_map]
  exact congrArg (Option.map _) hlane

end Sys2Proof.Machine

/-! Proofs about Advance and the output functions (41_advance.md): their values, Advance's inverse, and the draws that
use them. -/

namespace Sys2Proof.Machine

/-! ### The output functions -/

/-- A rotation as arithmetic: the low bits multiplied up and the high bits brought down (R11). -/
theorem rotl_toNat (a : Word) {k : Nat} (hk : k < 64) :
    (rotl a k).toNat = a.toNat * 2 ^ k % 2 ^ 64 + a.toNat / 2 ^ (64 - k) := by
  have hlow : a.toNat * 2 ^ k % 2 ^ 64 = 2 ^ k * (a.toNat % 2 ^ (64 - k)) := by
    rw [Nat.mul_comm, ← Nat.mul_mod_mul_left, ← Nat.pow_add, Nat.add_sub_cancel' hk.le]
  have hhigh : a.toNat / 2 ^ (64 - k) < 2 ^ k := by
    rw [Nat.div_lt_iff_lt_mul (Nat.two_pow_pos _), ← Nat.pow_add, Nat.add_sub_cancel' hk.le]
    exact a.isLt
  rw [rotl_eq_rotateLeft a k hk, BitVec.toNat_rotateLeft, Nat.mod_eq_of_lt hk, Nat.shiftLeft_eq,
    Nat.shiftRight_eq_div_pow, hlow, Nat.two_pow_add_eq_or_of_lt hhigh]

/-- Settles O28: the sum is reduced before its bits are rotated. -/
theorem outputFunctionsWrap : Obligations.OutputFunctionsWrap := by
  intro l
  refine ⟨BitVec.toNat_add _ _, ?_⟩
  rw [outWord, outPlusPlus, BitVec.toNat_add, rotl_toNat _ (by decide), BitVec.toNat_add]

/-! ### Advance and its inverse -/

/-- With commutativity this sorts the terms of an exclusive or, so that equal ones meet and cancel. -/
theorem word_xor_left_comm (a b c : Word) : a ^^^ (b ^^^ c) = b ^^^ (a ^^^ c) := by ac_rfl

/-- Settles O30: each word is the same exclusive or in another order. -/
theorem advanceHasClosedForm : Obligations.AdvanceHasClosedForm := by
  intro s0 s1 s2 s3
  simp only [advance, BitVec.xor_comm, word_xor_left_comm]

/-- Rotations whose counts add up to 64 undo each other. -/
theorem rotl_rotl (a : Word) {j k : Nat} (hj : 0 < j) (hk : 0 < k) (h : j + k = 64) : rotl (rotl a j) k = a := by
  apply BitVec.eq_of_getLsbD_eq
  intro i hi
  rw [rotationLosesNoBit _ k i hk (by omega) hi, rotationLosesNoBit a j _ hj (by omega) (Nat.mod_lt _ (by decide))]
  congr 1
  omega

/-- What `unshift17` gathers telescopes: the last term is shifted out of the word. -/
theorem unshift17_xor_shiftLeft (x : Word) : unshift17 (x ^^^ (x <<< 17)) = x := by
  have hout : x <<< (17 + 51) = 0 := BitVec.shiftLeft_eq_zero (by decide)
  simp [unshift17, BitVec.shiftLeft_xor_distrib, ← BitVec.shiftLeft_add, hout, BitVec.xor_assoc]

/-- The same sum, term by term in the other order. -/
theorem unshift17_xor_unshift17_shiftLeft (y : Word) : unshift17 y ^^^ (unshift17 y <<< 17) = y := by
  have hout : y <<< (51 + 17) = 0 := BitVec.shiftLeft_eq_zero (by decide)
  simp [unshift17, BitVec.shiftLeft_xor_distrib, ← BitVec.shiftLeft_add, hout, BitVec.xor_assoc]

/-- The equation has that one solution (R98). -/
theorem xor_shiftLeft_eq_iff (x y : Word) : x ^^^ (x <<< 17) = y ↔ x = unshift17 y :=
  ⟨fun h => h ▸ (unshift17_xor_shiftLeft x).symm, fun h => h ▸ unshift17_xor_unshift17_shiftLeft y⟩

/-- The middle two words of an advanced lane hold `s1 ^ (s1 << 17)`, and the last one `s1 ^ s3` (R98). -/
theorem unadvance_advance (l : Lane) : unadvance (advance l) = l := by
  obtain ⟨s0, s1, s2, s3⟩ := l
  have hmiddle : s0 ^^^ s1 ^^^ s2 ^^^ (s0 ^^^ s2 ^^^ (s1 <<< 17)) = s1 ^^^ (s1 <<< 17) := by
    simp [BitVec.xor_assoc, BitVec.xor_comm, word_xor_left_comm]
  rw [advanceHasClosedForm]
  simp only [unadvance, hmiddle, unshift17_xor_shiftLeft]
  simp [rotl_rotl, BitVec.xor_comm, word_xor_left_comm]

/-- Advancing the solution u of the equation for s1 gives the middle two words back (R98). -/
theorem advance_unadvance (l : Lane) : advance (unadvance l) = l := by
  obtain ⟨s0, s1, s2, s3⟩ := l
  have hu := unshift17_xor_unshift17_shiftLeft (s1 ^^^ s2)
  rw [unadvance, advanceHasClosedForm]
  generalize unshift17 (s1 ^^^ s2) = u at hu ⊢
  have hshift : u <<< 17 = u ^^^ (s1 ^^^ s2) := (xor_eq_iff_right_eq _ _ _).1 hu
  simp [hshift, rotl_rotl, BitVec.xor_assoc, BitVec.xor_comm, word_xor_left_comm]

/-- Settles O31: Advance has a two-sided inverse, and the all-zero lane is its own image. -/
theorem advanceIsABijection : Obligations.AdvanceIsABijection :=
  have hbij : Function.Bijective advance :=
    Function.bijective_iff_has_inverse.2 ⟨unadvance, unadvance_advance, advance_unadvance⟩
  ⟨advance_zero, outWord_zero .plus, outWord_zero .plusPlus, fun _ h => hbij.injective (h.trans advance_zero.symm),
    hbij, unadvance_advance, advance_unadvance, xor_shiftLeft_eq_iff⟩

/-! ### The draws -/

/-- Settles O37: a draw's word and next state for a lane are functions of that lane. -/
theorem equalLanesStayEqual : Obligations.EqualLanesStayEqual := by
  intro s k i j hi hs _ hj hlane
  obtain ⟨ls, hls, hexec⟩ := exec_drawInstr hi hs k
  rw [← State.lanes_length hls] at hj
  have hlj : ls[j]? = some ls[j] := List.getElem?_eq_getElem hj
  have hli : ls[i]? = some ls[j] := by rw [← State.lane_eq hls, hlane, State.lane_eq hls, hlj]
  refine ⟨_, _, hexec, rfl, ?_, ?_⟩
  · rw [responseWord_vectorBytes_map hli, responseWord_vectorBytes_map hlj]
  · rw [State.drawLanes_lane hls, State.drawLanes_lane hls, hlane]

/-- The words 0x00000002 and 0x00000003 are the two draws' (R62). -/
theorem decodeCommand_draw {cmd : CmdWord} (h : cmd = 0x00000002 ∨ cmd = 0x00000003) :
    ∃ k, decodeCommand cmd [] = .ok (drawInstr k) := by
  rcases h with rfl | rfl
  · exact ⟨.u64, rfl⟩
  · exact ⟨.f64, rfl⟩

/-- Settles O35: either word decodes to a draw, and a draw of a seeded block draws every lane. -/
theorem drawsAreTotal : Obligations.DrawsAreTotal := by
  intro s cmd rest hi _ hs hcmd hin
  obtain ⟨k, hdec⟩ := decodeCommand_draw hcmd
  obtain ⟨ls, -, hexec⟩ := exec_drawInstr (hi.setInbox rest) hs k
  exact ⟨_, _, (stepRunsTheDecodedCommand s cmd [] rest _ hin hdec).trans hexec, rfl⟩

end Sys2Proof.Machine

/-! Proofs about the unit-double conversion (42_convert.md): the fields of a result, the number it denotes, and its
range. -/

namespace Sys2Proof.Machine

/-! ### The kept bits -/

/-- The kept bits are `x >> 11`, as a quotient. -/
theorem unitBits_eq_div (x : Word) : unitBits x = x.toNat / 2 ^ 11 := by
  rw [unitBits, BitVec.toNat_ushiftRight, Nat.shiftRight_eq_div_pow]

theorem unitBits_lt (x : Word) : unitBits x < 2 ^ 53 := by
  rw [unitBits_eq_div]
  omega

theorem u2d_of_unitBits_eq_zero {x : Word} (h : unitBits x = 0) : u2d x = 0 := by
  simp [u2d, h]

/-- The conversion is a function of the kept bits. -/
theorem u2d_congr {x y : Word} (h : unitBits x = unitBits y) : u2d x = u2d y := by
  rw [u2d, u2d, h]

theorem exists_leadingOne {k : Nat} (h : k ≠ 0) : ∃ p, 2 ^ p ≤ k ∧ k < 2 ^ (p + 1) :=
  ⟨k.log2, Nat.log2_self_le h, Nat.lt_log2_self⟩

theorem leadingOne_le {x : Word} {p : Nat} (h : 2 ^ p ≤ unitBits x) : p ≤ 52 :=
  Nat.lt_succ_iff.1 ((Nat.pow_lt_pow_iff_right Nat.one_lt_two).1 (h.trans_lt (unitBits_lt x)))

/-! ### The fields of a pattern -/

/-- A pattern that is an exponent above a fraction has those two fields and sign 0 (log entry 15). -/
theorem f64Fields_of_toNat {b : Word} {e f : Nat} (h : b.toNat = 2 ^ 52 * e + f) (he : e < 2 ^ 11) (hf : f < 2 ^ 52) :
    f64Sign b = false ∧ f64Exponent b = e ∧ f64Fraction b = f := by
  refine ⟨?_, ?_, ?_⟩
  · have hmsb : f64Sign b = b.msb := (BitVec.msb_eq_getLsbD_last b).symm
    rw [hmsb, BitVec.msb_eq_decide, decide_eq_false_iff_not]
    omega
  · rw [f64Exponent, BitVec.extractLsb'_toNat, Nat.shiftRight_eq_div_pow]
    omega
  · rw [f64Fraction, BitVec.extractLsb'_toNat, Nat.shiftRight_zero]
    omega

section LeadingOne
/-! `p` is the position of the leading 1 of x's kept bits. -/

variable {x : Word} {p : Nat} (hlo : 2 ^ p ≤ unitBits x) (hhi : unitBits x < 2 ^ (p + 1))
include hlo

/-- Left-justifying the kept bits puts their leading 1 at bit 52, above the fraction. -/
theorem leadingOne_add_fraction : 2 ^ 52 + (unitBits x - 2 ^ p) * 2 ^ (52 - p) = unitBits x * 2 ^ (52 - p) := by
  rw [← pow_mul_pow_sub 2 (leadingOne_le hlo), ← Nat.add_mul, Nat.add_sub_cancel' hlo]

include hhi

theorem fraction_lt : (unitBits x - 2 ^ p) * 2 ^ (52 - p) < 2 ^ 52 := by
  have hbelow : unitBits x - 2 ^ p < 2 ^ p := by omega
  calc (unitBits x - 2 ^ p) * 2 ^ (52 - p) < 2 ^ p * 2 ^ (52 - p) :=
        Nat.mul_lt_mul_of_pos_right hbelow (Nat.two_pow_pos _)
    _ = 2 ^ 52 := pow_mul_pow_sub 2 (leadingOne_le hlo)

/-- R111's pattern as a number: the exponent and the fraction do not overlap, and both fit the word. -/
theorem u2d_toNat : (u2d x).toNat = 2 ^ 52 * (p + 970) + (unitBits x - 2 ^ p) * 2 ^ (52 - p) := by
  have hp := leadingOne_le hlo
  have hf := fraction_lt hlo hhi
  have hk : unitBits x ≠ 0 := ((Nat.two_pow_pos p).trans_le hlo).ne'
  have hlog : (unitBits x).log2 = p := (Nat.log2_eq_iff hk).2 ⟨hlo, hhi⟩
  simp only [u2d, if_neg hk, hlog, Nat.shiftLeft_eq _ (52 - p)]
  rw [← Nat.shiftLeft_add_eq_or_of_lt hf, Nat.shiftLeft_eq, BitVec.toNat_ofNat, Nat.mul_comm]
  exact Nat.mod_eq_of_lt (by omega)

theorem u2d_fields :
    f64Sign (u2d x) = false ∧ f64Exponent (u2d x) = p + 970 ∧
      f64Fraction (u2d x) = (unitBits x - 2 ^ p) * 2 ^ (52 - p) := by
  have hp := leadingOne_le hlo
  exact f64Fields_of_toNat (u2d_toNat hlo hhi) (by omega) (fraction_lt hlo hhi)

/-- The significand is `k · 2^(52 − p)` and the exponent `p + 970`, so the position p cancels. -/
theorem f64Magnitude_u2d : f64Magnitude (u2d x) = (unitBits x : Rat) / 2 ^ 53 := by
  obtain ⟨-, hexp, hfrac⟩ := u2d_fields hlo hhi
  have hp := leadingOne_le hlo
  have hsig : (2 ^ 52 + f64Fraction (u2d x)) * 2 ^ f64Exponent (u2d x) =
      unitBits x * 2 ^ (52 - p + (p + 970)) := by
    rw [hfrac, hexp, leadingOne_add_fraction hlo, Nat.mul_assoc, ← Nat.pow_add]
  have hcancel : 52 - p + (p + 970) + 53 = 1075 := by omega
  rw [f64Magnitude, if_neg (by omega), hsig, Nat.cast_mul, Nat.cast_pow, Nat.cast_ofNat,
    div_eq_div_iff (by positivity) (by positivity), mul_assoc, ← pow_add, hcancel]

end LeadingOne

/-! ### The conversion -/

/-- Settles O41: the pattern is +0.0, or the fields the leading 1 gives. -/
theorem conversionBitPattern : Obligations.ConversionBitPattern := by
  intro x k hk
  rw [← unitBits_eq_div] at hk
  subst hk
  exact ⟨u2d_of_unitBits_eq_zero, fun p hlo hhi => ⟨leadingOne_le hlo, u2d_fields hlo hhi⟩⟩

/-- Every result is +0.0 or normal, and its sign bit is 0. -/
theorem u2d_zero_or_normal (x : Word) :
    f64Sign (u2d x) = false ∧ (u2d x = 0 ∨ (0 < f64Exponent (u2d x) ∧ f64Exponent (u2d x) < 2047)) := by
  by_cases hk : unitBits x = 0
  · rw [u2d_of_unitBits_eq_zero hk]
    decide
  · obtain ⟨p, hlo, hhi⟩ := exists_leadingOne hk
    have hp := leadingOne_le hlo
    obtain ⟨hsign, hexp, -⟩ := u2d_fields hlo hhi
    exact ⟨hsign, .inr (by omega)⟩

theorem f64Value_u2d (x : Word) : f64Value (u2d x) = some ((unitBits x : Rat) / 2 ^ 53) := by
  by_cases hk : unitBits x = 0
  · rw [u2d_of_unitBits_eq_zero hk, hk]
    decide +kernel
  · obtain ⟨p, hlo, hhi⟩ := exists_leadingOne hk
    have hp := leadingOne_le hlo
    obtain ⟨hsign, hexp, -⟩ := u2d_fields hlo hhi
    rw [f64Value, if_neg (by omega), hsign, f64Magnitude_u2d hlo hhi]
    rfl

/-- Settles O40: the significand and the exponent give k · 2^−53 whatever the position of k's leading 1. -/
theorem conversionIsExact : Obligations.ConversionIsExact := by
  intro x
  rw [← unitBits_eq_div]
  exact ⟨f64Value_u2d x, (u2d_zero_or_normal x).1⟩

/-! ### The range of the conversion -/

/-- Two words give one result exactly when their kept bits agree: the result denotes them (R110). -/
theorem u2d_eq_iff (x y : Word) : u2d x = u2d y ↔ unitBits x = unitBits y := by
  refine ⟨fun h => ?_, u2d_congr⟩
  have hvalue : (unitBits x : Rat) / 2 ^ 53 = unitBits y / 2 ^ 53 :=
    Option.some.inj (by rw [← f64Value_u2d, h, f64Value_u2d])
  exact_mod_cast (div_left_inj' (by positivity)).1 hvalue

/-- The non-zero results lie between the patterns of 2^−53 and 1 − 2^−53 (R112). -/
theorem u2d_bounds {x : Word} (hk : unitBits x ≠ 0) :
    (0x3CA0000000000000 : Word) ≤ u2d x ∧ u2d x ≤ (0x3FEFFFFFFFFFFFFF : Word) := by
  obtain ⟨p, hlo, hhi⟩ := exists_leadingOne hk
  have hp := leadingOne_le hlo
  have hf := fraction_lt hlo hhi
  have hleast : (0x3CA0000000000000 : Word).toNat = 2 ^ 52 * 970 := by decide
  have hgreatest : (0x3FEFFFFFFFFFFFFF : Word).toNat = 2 ^ 52 * 1022 + (2 ^ 52 - 1) := by decide
  rw [BitVec.le_def, BitVec.le_def, u2d_toNat hlo hhi, hleast, hgreatest]
  omega

/-- The number denoted is in [0, 1): the kept bits are fewer than 2^53. -/
theorem f64Value_u2d_mem_unit (x : Word) :
    ∃ q, f64Value (u2d x) = some q ∧ q * 2 ^ 53 = unitBits x ∧ 0 ≤ q ∧ q < 1 := by
  have hlt : (unitBits x : Rat) < 2 ^ 53 := mod_cast unitBits_lt x
  exact ⟨_, f64Value_u2d x, div_mul_cancel₀ _ (by positivity), by positivity, (div_lt_one (by positivity)).2 hlt⟩

/-- The smallest kept bits that are not 0 give the pattern of 2^−53 (R112). -/
theorem u2d_of_unitBits_eq_one {x : Word} (h : unitBits x = 1) : u2d x = 0x3CA0000000000000 := by
  have hk : unitBits x = unitBits 2048 := h.trans (by decide)
  exact (u2d_congr hk).trans (by decide)

/-- The largest kept bits give the pattern of 1 − 2^−53 (R112). -/
theorem u2d_of_unitBits_eq_ones {x : Word} (h : unitBits x = 2 ^ 53 - 1) : u2d x = 0x3FEFFFFFFFFFFFFF := by
  have hk : unitBits x = unitBits 0xFFFFFFFFFFFFF800 := h.trans (by decide)
  exact (u2d_congr hk).trans (by decide)

/-- Settles O42: the corners are the words whose kept bits are 0, 1 and 2^53 − 1. -/
theorem conversionRange : Obligations.ConversionRange := by
  unfold Obligations.ConversionRange
  simp only [← unitBits_eq_div]
  refine ⟨fun x h => u2d_of_unitBits_eq_zero ?_, fun x hlo hhi => u2d_of_unitBits_eq_one ?_,
    fun x h => u2d_of_unitBits_eq_ones ?_, fun x h => u2d_bounds ?_,
    f64Value_u2d_mem_unit, u2d_zero_or_normal, u2d_eq_iff⟩
  all_goals
    rw [unitBits_eq_div]
    omega

end Sys2Proof.Machine

/-! Proofs about STATUS (43_status.md): its whole rule, and that any number of them leaves the block as it was. -/

namespace Sys2Proof.Machine

/-- The STATUS word is assembled from the flags and the configuration, so S0..S3 do not show in it (R28, R120). -/
theorem State.statusWord_of_registers (s : State) (a b c d : Option (List Word)) :
    { s with s0 := a, s1 := b, s2 := c, s3 := d }.statusWord = s.statusWord := rfl

/-- Settles O45, by the three things STATUS can do. -/
theorem statusFollowsItsRule : Obligations.StatusFollowsItsRule := by
  refine ⟨by decide, fun s rsv payload => ⟨?_, s.statusWord_of_registers⟩⟩
  rcases execStatus_cases rsv payload s with ⟨hf, hx, hexec⟩ | ⟨hf, hx, hexec⟩ | ⟨hr, hl, hexec⟩
  · rw [if_pos ⟨hf, hx⟩]
    exact hexec
  · rw [if_neg (by simp [hf]), if_pos hx]
    exact ⟨_, hexec, s.raise_faultEntered _⟩
  · have hx : ¬(rsv ≠ 0 ∨ payload.length ≠ 0) := by simp [hr, hl]
    rw [if_neg (fun h => hx h.2), if_neg hx]
    exact hexec

/-- A run of STATUS commands answers one word over and over, since an answer given does not show in the next one. -/
theorem run_status (s : State) (n : Nat) (rest : List HostStep) :
    Sys2Proof.core.run n (s.setInbox (List.replicate n (commandStep (.status 0 [])) ++ rest)) =
      .next { s with
        inbox := rest
        responses := s.responses ++ List.replicate n ⟨codeOk, le32bytes s.statusWord⟩ } := by
  induction n generalizing s with
  | zero =>
    rw [List.replicate_zero, List.replicate_zero, List.append_nil]
    exact run_zero _
  | succ n ih =>
    have hstep := step_commandStep (i := .status 0 []) rfl (execStatus_exact s)
    rw [List.replicate_succ, List.replicate_succ, List.append_cons s.responses]
    exact (run_succ_next _ (hstep _)).trans (ih (s.respond codeOk (le32bytes s.statusWord)))

/-- Settles O46: the equal responses are those of the STATUS word the block has before the run. -/
theorem statusHasNoSideEffect : Obligations.StatusHasNoSideEffect := fun s n rest => ⟨_, run_status s n rest⟩

end Sys2Proof.Machine

/-! Proofs about faults (60_exceptions.md): the commands that raise each of them, their priority, fault entry, and the
faulted block. -/

namespace Sys2Proof.Machine

/-! ### The four faults -/

/-- A guarded command whose fields are at fault raises that fault on an unfaulted block. -/
theorem guarded_of_fieldFault {s : State} (hf : s.faulted = false) (c : FaultCause)
    (body : State → Host.Outcome State Fault Refusal) : guarded (some c) body s = .next (s.raise c) :=
  if_neg (by simp [hf])

/-- A malformed draw raises RESERVED_FIELD on an unfaulted block, seeded or not. -/
theorem draw_of_malformed {rsv : BitVec 8} {payload : List Byte} {s : State} (hf : s.faulted = false)
    (h : rsv ≠ 0 ∨ payload ≠ []) (convert : Word → Word) :
    draw convert rsv payload s = .next (s.raise .reservedField) := by
  rcases bareFieldFault_cases rsv payload.length with ⟨hfault, -⟩ | ⟨-, hr, hl⟩
  · rw [draw, hfault, guarded_of_fieldFault hf]
  · exact absurd (List.length_eq_zero_iff.1 hl) (h.resolve_left (not_not.2 hr))

/-- Settles O20, command by command: SEED's LEN is no reserved field, the others' is. -/
theorem reservedFieldFaults : Obligations.ReservedFieldFaults := by
  intro i s hf h
  refine ⟨s.raise .reservedField, ?_, s.raise_faultEntered _⟩
  cases i with
  | seed rsv payload =>
    have hr : rsv ≠ 0 := h.resolve_right fun hm => hm.1 rfl
    have hfault : seedFieldFault s.cfg.n rsv payload.length = some .reservedField := if_pos hr
    rw [exec, execSeed, hfault, guarded_of_fieldFault hf]
  | nextU64 rsv payload => exact draw_of_malformed hf (h.imp_right And.right) id
  | nextF64 rsv payload => exact draw_of_malformed hf (h.imp_right And.right) u2d
  | status rsv payload =>
    have hx : ¬(rsv = 0 ∧ payload = []) := not_and_or.2 (h.imp_right And.right)
    exact (execStatus_malformed hx s).trans (guarded_of_fieldFault hf _ _)

/-- Settles O21, by SEED's rule. -/
theorem seedLengthFaults : Obligations.SeedLengthFaults := by
  intro s payload hf hl
  have hrule := (seedFollowsItsRule s 0 payload).2
  rwa [if_neg (by simp [hf]), if_neg (not_not.2 rfl), if_pos hl] at hrule

/-- Settles O22: a well-formed draw has no field fault, so SEEDED is what an unfaulted block checks. -/
theorem unseededDrawFaults : Obligations.UnseededDrawFaults := by
  intro s k hs
  have hexec : exec (drawInstr k) s = guarded none (drawChecked (drawConvert k)) s := by cases k <;> rfl
  rw [hexec]
  split
  next hf => exact if_pos hf
  next hf => exact ⟨_, (if_neg hf).trans (if_pos hs), s.raise_faultEntered .notSeeded⟩

/-- Settles O19: such a word decodes to no command. -/
theorem illegalOpcodeFaults : Obligations.IllegalOpcodeFaults := by
  intro s cmd payload rest hf hin hlen ho
  obtain ⟨-, -, -, -, hillegal⟩ := decodingIsByOpcodeAlone cmd payload (hlen.trans (cmdLen_eq cmd))
  rw [step_cons hin, hostStep, transact, hillegal ho]
  exact ⟨_, if_neg (by simp [hf]), (s.setInbox rest).raise_faultEntered .illegalOpcode⟩

/-! ### Fault entry -/

/-- The four codes are 1 to 4 (R130). -/
theorem faultCodeOf_bounds (c : FaultCause) : faultCodeOf c ≠ 0 ∧ faultCodeOf c ≤ 4 := by
  cases c <;> decide

/-- Settles O15: of the effects a transaction can have on an unfaulted block, a fault entry alone answers another code
than OK. -/
theorem faultEntryIsPrecise : Obligations.FaultEntryIsPrecise := by
  intro s t cmd payload rest r hf hin hstep hresp hcode
  rw [step_cons hin] at hstep
  have hanswer {x : Response} (hx : t.responses = s.responses ++ [x]) : r = x :=
    List.singleton_injective (List.append_cancel_left (hresp.symm.trans hx))
  cases transact_effect hstep with
  | rejected hf' => exact absurd (hf.symm.trans hf') (by decide)
  | illegalOpcode | reservedField | seedLength | notSeeded =>
    obtain ⟨hne, hle⟩ := faultCodeOf_bounds _
    exact ⟨_, hne, hle, hanswer rfl, State.raise_faultEntered _ _⟩
  | seeded | drawn | status => exact absurd (congrArg Response.code (hanswer rfl)) hcode

/-! ### The priority of the faults -/

/-- The code a word of a legal opcode is answered with on an unfaulted block: RSV, then LEN, then SEEDED (R135). -/
def legalOpcodeCode (s : State) (cmd : CmdWord) : Nat :=
  if cmd.toNat / 2 ^ 8 % 2 ^ 8 ≠ 0 then 4
  else if cmd.toNat % 2 ^ 8 ≠ 1 ∧ cmd.toNat / 2 ^ 16 ≠ 0 then 4
  else if cmd.toNat % 2 ^ 8 = 1 ∧ cmd.toNat / 2 ^ 16 ≠ 32 * s.cfg.n then 1
  else if (cmd.toNat % 2 ^ 8 = 2 ∨ cmd.toNat % 2 ^ 8 = 3) ∧ s.seeded = false then 2
  else 0

/-- The code any word is answered with, by the whole priority order (R135). -/
def priorityCode (s : State) (cmd : CmdWord) : Nat :=
  if s.faulted = true ∧ cmd ≠ 0x00000004 then 0x0F
  else if cmd.toNat % 2 ^ 8 = 0 ∨ 4 < cmd.toNat % 2 ^ 8 then 3
  else legalOpcodeCode s cmd

theorem priorityCode_of_rejected {s : State} {cmd : CmdWord} (hf : s.faulted = true) (hc : cmd ≠ 0x00000004) :
    priorityCode s cmd = 0x0F :=
  if_pos ⟨hf, hc⟩

theorem priorityCode_of_illegalOpcode {s : State} {cmd : CmdWord} (hf : s.faulted = false)
    (ho : cmd.toNat % 2 ^ 8 = 0 ∨ 4 < cmd.toNat % 2 ^ 8) : priorityCode s cmd = 3 := by
  rw [priorityCode, if_neg (by simp [hf]), if_pos ho]

theorem priorityCode_of_legalOpcode {s : State} {cmd : CmdWord} (hf : s.faulted = false)
    (ho : 1 ≤ cmd.toNat % 2 ^ 8 ∧ cmd.toNat % 2 ^ 8 ≤ 4) : priorityCode s cmd = legalOpcodeCode s cmd := by
  rw [priorityCode, if_neg (by simp [hf]), if_neg (by omega)]

/-- `t` is `s` with one more response, of this code; a code of 1 to 4 is a fault's and stands in FAULT_CODE, and no other
changes FAULTED or FAULT_CODE. -/
def State.AnsweredWith (s t : State) (code : Nat) : Prop :=
  ∃ data, t.responses = s.responses ++ [⟨BitVec.ofNat 8 code, data⟩] ∧
    (if 1 ≤ code ∧ code ≤ 4 then t.faulted = true ∧ t.faultCode = BitVec.ofNat 4 code
     else t.faulted = s.faulted ∧ t.faultCode = s.faultCode)

theorem State.raise_answeredWith (s : State) (c : FaultCause) :
    s.AnsweredWith (s.raise c) (faultCodeOf c).toNat := by
  cases c <;> exact ⟨_, rfl, rfl, rfl⟩

/-- The conditions of each effect a transaction can have single out its arm of the priority order. -/
theorem TransactEffect.answeredWith_priorityCode {cmd : CmdWord} {payload : List Byte} {s t : State}
    (heff : TransactEffect cmd payload s t) : s.AnsweredWith t (priorityCode s cmd) := by
  cases heff with
  | rejected hf hc =>
    rw [priorityCode_of_rejected hf hc]
    exact ⟨_, rfl, rfl, rfl⟩
  | illegalOpcode hf ho =>
    rw [priorityCode_of_illegalOpcode hf ho]
    exact s.raise_answeredWith .illegalOpcode
  | reservedField hf ho hr =>
    rw [priorityCode_of_legalOpcode hf ho, legalOpcodeCode, ← ite_or, if_pos hr]
    exact s.raise_answeredWith .reservedField
  | seedLength hf ho hr hl =>
    rw [priorityCode_of_legalOpcode hf (by omega), legalOpcodeCode, if_neg (not_not.2 hr), if_neg (by omega),
      if_pos ⟨ho, hl⟩]
    exact s.raise_answeredWith .seedLength
  | notSeeded hf hs ho hr hl =>
    rw [priorityCode_of_legalOpcode hf (by omega), legalOpcodeCode, if_neg (not_not.2 hr), if_neg (by omega),
      if_neg (by omega), if_pos ⟨ho, hs⟩]
    exact s.raise_answeredWith .notSeeded
  | seeded hf ho hr hl =>
    rw [priorityCode_of_legalOpcode hf (by omega), legalOpcodeCode, if_neg (not_not.2 hr), if_neg (by omega),
      if_neg (by omega), if_neg (by omega)]
    exact ⟨_, rfl, rfl, rfl⟩
  | drawn _ _ _ _ hf hs ho hr hl =>
    rw [priorityCode_of_legalOpcode hf (by omega), legalOpcodeCode, if_neg (not_not.2 hr), if_neg (by omega),
      if_neg (by omega), if_neg (by simp [hs])]
    exact ⟨_, rfl, rfl, rfl⟩
  | status hc =>
    have hcode : priorityCode s cmd = 0 := by simp [priorityCode, legalOpcodeCode, hc]
    rw [hcode]
    exact ⟨_, rfl, rfl, rfl⟩

/-- Settles O14: a transaction of LEN bytes has a move, and its effect is answered with the code of the priority order. -/
theorem faultPriorityOrder : Obligations.FaultPriorityOrder := by
  intro s cmd payload rest hi hin hlen opc rsv len code
  obtain ⟨t, ht⟩ := transact_next (hi.setInbox rest) hlen
  obtain ⟨data, hresp, hflags⟩ := (transact_effect ht).answeredWith_priorityCode
  exact ⟨t, data, (step_cons hin).trans ht, hresp, hflags⟩

/-! ### The faulted block -/

/-- Every command has a next state on a faulted block. -/
theorem exec_next_of_faulted {s : State} (hf : s.faulted = true) (i : Instr) : ∃ t, exec i s = .next t := by
  cases i with
  | seed | nextU64 | nextF64 => exact ⟨s.reject, if_pos hf⟩
  | status rsv payload =>
    rcases execStatus_cases rsv payload s with ⟨-, -, e⟩ | ⟨-, -, e⟩ | ⟨-, -, e⟩ <;> exact ⟨_, e⟩

/-- And so has every transaction of LEN bytes. -/
theorem transact_next_of_faulted {cmd : CmdWord} {payload : List Byte} {s : State} (hf : s.faulted = true)
    (hlen : payload.length = cmdLen cmd) : ∃ t, transact cmd payload s = .next t := by
  rw [transact, decodeCommand_of_length hlen]
  cases opcodeInstr (cmdOpc cmd) (cmdRsv cmd) payload with
  | none => exact ⟨s.reject, if_pos hf⟩
  | some i => exact exec_next_of_faulted hf i

/-- What a transaction does to a faulted block: the exact STATUS word is answered, any other is rejected (R137). -/
theorem TransactEffect.of_faulted {cmd : CmdWord} {payload : List Byte} {s t : State}
    (heff : TransactEffect cmd payload s t) (hf : s.faulted = true) :
    (cmd = 0x00000004 ∧ t = s.respond codeOk (le32bytes s.statusWord)) ∨ (cmd ≠ 0x00000004 ∧ t = s.reject) := by
  cases heff with
  | status hc => exact .inl ⟨hc, rfl⟩
  | rejected _ hc => exact .inr ⟨hc, rfl⟩
  | illegalOpcode hf' | reservedField hf' | seedLength hf' | notSeeded hf' | seeded hf' | drawn _ _ _ _ hf' =>
    exact absurd (hf.symm.trans hf') (by decide)

/-- Settles O16, by the two effects a transaction can have there, and the bits of the STATUS word. -/
theorem faultedBlockAnswersStatusAlone : Obligations.FaultedBlockAnswersStatusAlone := by
  intro s cmd payload rest hf hin hlen
  obtain ⟨t, ht⟩ := transact_next_of_faulted (s := s.setInbox rest) hf hlen
  rw [step_cons hin, hostStep, ht]
  rcases (transact_effect ht).of_faulted hf with ⟨hc, rfl⟩ | ⟨hc, rfl⟩
  · rw [if_pos hc]
    refine ⟨?_, extractLsb'_eq_of_getLsbD fun i hi => s.statusWord_faultCode hi, rfl⟩
    simp [s.statusWord_getLsbD, hf]
  · rw [if_neg hc]
    rfl

/-- Settles O17: of the host steps a step can take, a reset alone leaves a faulted block's FAULTED or FAULT_CODE another
way. -/
theorem onlyResetClearsTheFault : Obligations.OnlyResetClearsTheFault := by
  refine ⟨fun s t hf h => ?_, fun s rsv payload hf => if_pos hf⟩
  cases step_effect h with
  | idle => exact .inl ⟨hf, rfl⟩
  | transaction _ _ heff =>
    rcases heff.of_faulted hf with ⟨-, rfl⟩ | ⟨-, rfl⟩ <;> exact .inl ⟨hf, rfl⟩
  | reset hin => exact .inr ⟨_, .inl hin⟩
  | resetDuring hin => exact .inr ⟨_, .inr ⟨_, _, hin⟩⟩

end Sys2Proof.Machine

/-! Proofs about reset and the idle block (70_reset_and_hazards.md). -/

namespace Sys2Proof.Machine

/-- A reset between transactions is taken from the inbox and resets the block (R150). -/
theorem step_reset {s : State} {rest : List HostStep} (h : s.inbox = .reset :: rest) :
    step s = .next (s.setInbox rest).resetBlock := step_cons h

/-- So does a reset during a transaction of which no more than LEN bytes had arrived (R151). -/
theorem step_resetDuring {s : State} {cmd : CmdWord} {delivered : List Byte} {rest : List HostStep}
    (h : s.inbox = .resetDuring cmd delivered :: rest) (hlen : delivered.length ≤ cmdLen cmd) :
    step s = .next (s.setInbox rest).resetBlock := (step_cons h).trans (if_neg hlen.not_gt)

/-- Bits 31:8 of the STATUS word are constant fields: they read the configuration alone (R28). -/
theorem State.statusWord_constantFields {s t : State} (h : t.cfg = s.cfg) :
    t.statusWord.extractLsb' 8 24 = s.statusWord.extractLsb' 8 24 := by
  refine extractLsb'_eq_of_getLsbD fun i hi => ?_
  have hcode (u : State) : u.faultCode.getLsbD (8 + i - 4) = false := BitVec.getLsbD_of_ge _ _ (by omega)
  have hne : 8 + i ≠ 0 ∧ 8 + i ≠ 1 := by omega
  simp [State.statusWord_getLsbD, h, hcode, hne, hi]

/-- Settles O1, by the reset block's registers and flags: of the STATUS word only the fields in bits 7:0 read them. -/
theorem resetClearsTheBlock : Obligations.ResetClearsTheBlock := fun _ _ hin =>
  ⟨_, step_reset hin, rfl, rfl, rfl, rfl, rfl, rfl, rfl, rfl, State.statusWord_constantFields rfl⟩

/-- Settles O2: the two resets leave the same state, and none of the transaction is read. -/
theorem resetDiscardsATransaction : Obligations.ResetDiscardsATransaction := fun _ _ _ _ hin hlen =>
  ⟨_, step_resetDuring hin hlen, step_reset rfl, rfl, rfl, rfl, rfl, rfl, rfl, rfl, rfl, rfl⟩

/-- Settles O3: a step is taken from the inbox, and the idle block's is empty. -/
theorem idleBlockWaits : Obligations.IdleBlockWaits := fun _ => step_idle

end Sys2Proof.Machine
